-- ==== Sys2Proof/Word.lean ====
section
/-! DEFINITION. The two word types of the block: bytes and 32-bit register words (00_scope.md R10, R13). -/

namespace Sys2Proof

/-- A byte, 8 bits (R13). -/
abbrev Byte := BitVec 8

/-- The contents of a register, a command word or a host-bus data word: 32 bits (R10). -/
abbrev Word := BitVec 32

end Sys2Proof
end

