-- ==== Sys2Proof/Config.lean ====
section
/-! DEFINITION. What an implementation fixes (the three parameters of 00_scope.md R7, the base addresses of
20_memory.md R84) and the free values the spec leaves open. -/

namespace Sys2Proof

/-- The implementation parameters of R7. State carries them in a field that no step changes, so a statement about
every state is a statement about every choice of parameters (log 1). -/
structure Params where
  /-- `BUF_BYTES`, the size of the IO buffer in bytes. -/
  bufBytes   : Nat
  /-- `MAX_CHUNKS`, the largest number of chunks SEQ can hold. -/
  maxChunks  : Nat
  /-- `STORE_BYTES`, the largest total of data bytes over SEQ. -/
  storeBytes : Nat
  deriving DecidableEq, Repr

/-- The reference configuration `RC1` of R9: an example, not a property of the hardware.
DESIGN CHOICE (log 1): the one reset state the host's interface asks for uses it. -/
def Params.rc1 : Params := { bufBytes := 4096, maxChunks := 16, storeBytes := 2048 }

/-- The k-th free byte: what a read of an unwritten IOBUF byte returns (10_state.md R61, 70_reset_and_hazards.md
R375), and a host read of IOBUF while BUSY = 1 (R385). State's `draws` numbers the draws (log 2, log 3). -/
opaque Config.freeByte : Nat → Byte

/-- The k-th free word: what a host read returns while RST = 1 (70_reset_and_hazards.md R370; log 4). -/
opaque Config.freeWord : Nat → Word

/-- `REG_BASE`: where the platform puts the register space (20_memory.md R84). Nothing in the block depends on it (log 17). -/
opaque Config.regBase : Nat

/-- `BUF_BASE`: where the platform puts the buffer space (20_memory.md R84; log 17). -/
opaque Config.bufBase : Nat

end Sys2Proof
end

