-- ==== Sys2Proof/Machine/State.lean ====
section
/-! DEFINITION. The state of pngme-core as plain data: the record of 10_state.md R65, the parameters (00_scope.md R7),
and the model's own fields that hold what the outside world does next. -/

namespace Sys2Proof.Machine

/-- A 4-byte chunk type, its bytes in stream order (10_state.md R56). -/
structure ChunkType where
  b0 : Byte
  b1 : Byte
  b2 : Byte
  b3 : Byte
  deriving DecidableEq, Repr

/-- A chunk record of SEQ (R56). Its length is derived, never stored. -/
structure Chunk where
  type : ChunkType
  data : List Byte
  crc  : Word
  deriving DecidableEq, Repr

/-- The written bytes of IOBUF, by offset (R61): a list in the canonical form `Memory.wf` of Ops.lean. -/
abbrev Memory := List Host.Cell

/-- The two host-visible address spaces (20_memory.md R80, R83). -/
inductive Space where
  | reg
  | buf
  deriving DecidableEq, Repr

/-- The width of a host access: 8, 16 or 32 bits (R80). -/
inductive Width where
  | w8
  | w16
  | w32
  deriving DecidableEq, Repr

/-- One access of the host-bus target port (R80). -/
structure Access where
  space  : Space
  offset : Word
  width  : Width
  write  : Bool
  wdata  : Word
  deriving DecidableEq, Repr

/-- What happens next at the block's ports or inside it (70_reset_and_hazards.md R376). `access`, `engine`, `coincide`
and `reset` are the block's; `poll`, `forward`, `stopOnError` and `printChunks` are moves of a host program that acts on
what it just read (30_encoding.md R122, 44_control.md section 2; log 10). -/
inductive Event where
  /-- One host access (R80, R95). -/
  | access (a : Access)
  /-- One engine step: the completion of the command in flight, if there is one (R376, R381). -/
  | engine
  /-- A host access and a completion in one clock cycle (60_exceptions.md R337). -/
  | coincide (a : Access) (engineFirst : Bool)
  /-- RST = 1 at a clock edge, perhaps with a host access in the same cycle (R370). -/
  | reset (a : Option Access)
  /-- The host reads STATUS until DONE = 1 (30_encoding.md R122 `poll`). -/
  | poll
  /-- The host writes the word it read last to the register at this offset (R304 `wr ARG_INDEX, RES_INDEX`). -/
  | forward (offset : Word)
  /-- The host reads ERRCODE and stops if it is not 0 (44_control.md section 2). -/
  | stopOnError
  /-- The host reads NCHUNKS and goes through R306's loop once for each chunk, with the scratch range at `dst`. -/
  | printChunks (dst : Word)
  deriving DecidableEq, Repr

/-- The error kinds of 60_exceptions.md R320. -/
inductive ErrorKind where
  | invalidSignature
  | bufferTooShort
  | invalidCrc
  | invalidTypeByte
  | invalidTypeString
  | chunkNotFound
  | utf8DecodeError
  | badCommand
  | rangeError
  | capacityExceeded
  deriving DecidableEq, Repr

/-- Why the machine stops with a fault: never. Every host access completes with no error response (20_memory.md R80),
every error of a command is an error completion (60_exceptions.md R330, R345), and every accepted command completes
(70_reset_and_hazards.md R382). So there is no constructor (log 18). -/
inductive Fault where
  deriving DecidableEq, Repr

/-- Why the machine refuses an instruction. -/
inductive Refusal where
  /-- An instruction that has no meaning in this model yet, raised by its arm of `exec` alone; safe, since nothing is
  claimed of it. No arm raises it now. -/
  | notModelled (mnemonic : String)
  deriving DecidableEq, Repr

/-- The whole state: R65's record, then the parameters, then the model's own fields. -/
structure State where
  /-- CTRL.IE (R34). -/
  ie        : Bool
  /-- STATUS.BUSY (R35). -/
  busy      : Bool
  /-- STATUS.DONE (R36). -/
  done      : Bool
  /-- STATUS.PV (R38). -/
  pv        : Bool
  /-- The CMD read-back (R39). -/
  lastcmd   : Word
  /-- INFLIGHT (R63). -/
  inflight  : Option Word
  /-- ERRCODE[7:0] (R40). -/
  errcode   : BitVec 8
  /-- ARG_ADDR (R41). -/
  argAddr   : Word
  /-- ARG_LEN (R42). -/
  argLen    : Word
  /-- ARG_TYPE (R43). -/
  argType   : Word
  /-- ARG_INDEX (R44). -/
  argIndex  : Word
  /-- ARG_DST (R45). -/
  argDst    : Word
  /-- RES_LEN (R46). -/
  resLen    : Word
  /-- RES_TYPE (R47). -/
  resType   : Word
  /-- RES_CRC (R48). -/
  resCrc    : Word
  /-- RES_INDEX (R49). -/
  resIndex  : Word
  /-- RES_OFFSET (R50). -/
  resOffset : Word
  /-- CRC_STATE (R51). -/
  crcState  : Word
  /-- TYPE_FLAGS (R53). -/
  typeFlags : Word
  /-- SEQ (R56). -/
  seq       : List Chunk
  /-- IOBUF (R61): the written bytes by offset, offsets rising; an unlisted offset is unwritten. -/
  iobuf     : Memory
  /-- The implementation parameters (00_scope.md R7); no step changes them (log 1). -/
  params    : Params
  /-- The model's own: how many free values have been read (log 2). -/
  draws     : Nat
  /-- The model's own: what happens next, first event first (log 5). -/
  schedule  : List Event
  /-- The model's own: the data the latest read access returned (20_memory.md R80; log 8). -/
  rdata     : Word
  deriving DecidableEq, Repr

/-- The reset state of R65 and 70_reset_and_hazards.md R370, for given parameters. `draws`, `schedule` and `rdata` are
the model's own; their values are DESIGN CHOICES (log 2, log 5, log 8). -/
def State.resetWith (p : Params) : State :=
  { ie := false, busy := false, done := false, pv := false, lastcmd := 0, inflight := none, errcode := 0
    argAddr := 0, argLen := 0, argType := 0, argIndex := 0, argDst := 0
    resLen := 0, resType := 0, resCrc := 0, resIndex := 0, resOffset := 0
    crcState := 0xFFFFFFFF, typeFlags := 0, seq := [], iobuf := []
    params := p, draws := 0, schedule := [], rdata := 0 }

/-- The machine right after reset. DESIGN CHOICE (log 1): in the reference configuration RC1. -/
def State.reset : State := State.resetWith Params.rc1

end Sys2Proof.Machine
end

