-- ==== Sys2Proof/Machine/Ops.lean ====
section
/-! DEFINITION. The shared operations: the IO buffer as written bytes, reading and writing it, completing a command
with success or with an error, accepting a command, reset, and the schedule. -/

namespace Sys2Proof.Machine

/-! ## The written bytes of IOBUF (10_state.md R61) -/

/-- The canonical form: offsets strictly rising. An unlisted offset is unwritten and holds no value, so no entry can
equal what an unlisted one reads as. -/
abbrev Memory.wf (m : Memory) : Prop := m.Pairwise (fun x y => x.1 < y.1)

/-- The byte last written at an offset, or `none` while it is unwritten (R61). -/
def Memory.get? : Memory → Nat → Option Byte
  | [], _ => none
  | (k, v) :: m, a => if k = a then some v else Memory.get? m a

/-- Write one byte. -/
def Memory.set : Memory → Nat → Byte → Memory
  | [], a, b => [(a, b)]
  | (k, v) :: m, a, b =>
    if a < k then (a, b) :: (k, v) :: m
    else if a = k then (a, b) :: m
    else (k, v) :: Memory.set m a b

/-- Write a byte sequence at rising offsets from `a`. -/
def Memory.setBytes : Memory → Nat → List Byte → Memory
  | m, _, [] => m
  | m, a, b :: bs => Memory.setBytes (Memory.set m a b) (a + 1) bs

/-! ## Reading and writing IOBUF (00_scope.md R17) -/

/-- One byte of IOBUF read at draw `k`: the byte last written there, or the k-th free byte while it is unwritten
(R61, 70_reset_and_hazards.md R375; log 2). -/
def State.readByte (s : State) (a k : Nat) : Byte := (Memory.get? s.iobuf a).getD (Config.freeByte k)

/-- `MemRead(a, n)`: the bytes IOBUF[a..a+n). Byte i uses draw `draws + i`; a reader then counts the draws with `drawn`. -/
def State.memRead (s : State) (a n : Nat) : List Byte := (List.range n).map fun i => s.readByte (a + i) (s.draws + i)

/-- Count `n` draws, so that a later read of an unwritten byte is a fresh draw (93_implementation_defined.md U1). -/
def State.drawn (s : State) (n : Nat) : State := { s with draws := s.draws + n }

/-- `MemWrite(a, |bytes|, bytes)`. -/
def State.memWrite (s : State) (a : Nat) (bytes : List Byte) : State :=
  { s with iobuf := Memory.setBytes s.iobuf a bytes }

/-- The n bytes from offset `a` lie wholly inside the buffer: `a + n <= BUF_BYTES` on unbounded naturals
(20_memory.md R94). -/
def State.inBuf (s : State) (a n : Nat) : Bool := a + n ≤ s.params.bufBytes

/-- The number of data bytes of a chunk list: what STORE_USED reads (10_state.md R54). -/
def dataBytes (q : List Chunk) : Nat := (q.map fun c => c.data.length).sum

/-- One more chunk with `n` data bytes keeps the capacities (10_state.md R58, 60_exceptions.md R333). -/
def State.roomFor (s : State) (n : Nat) : Bool :=
  s.seq.length + 1 ≤ s.params.maxChunks ∧ dataBytes s.seq + n ≤ s.params.storeBytes

/-! ## Completion (60_exceptions.md R330, R334) -/

/-- The ERRCODE value of an error kind (R320). -/
def ErrorKind.code : ErrorKind → BitVec 8
  | .invalidSignature  => 1
  | .bufferTooShort    => 2
  | .invalidCrc        => 3
  | .invalidTypeByte   => 4
  | .invalidTypeString => 5
  | .chunkNotFound     => 6
  | .utf8DecodeError   => 7
  | .badCommand        => 8
  | .rangeError        => 9
  | .capacityExceeded  => 10

/-- The completion fields of R330 and R334: ERRCODE <- code, BUSY <- 0, DONE <- 1, INFLIGHT <- empty. -/
def State.complete (s : State) (code : BitVec 8) : State :=
  { s with errcode := code, busy := false, done := true, inflight := none }

/-- The end of a command's pseudocode without a raise (R334). -/
def succeed (s : State) : Host.Outcome State Fault Refusal := .next (s.complete 0)

/-- `raise E()` (R330), this block's exception entry: it saves nothing, changes no mode and goes nowhere (R345). The
return from it is the host's acknowledgement (R346): a STATUS write (`State.writeReg`) or the next `State.accept`. -/
def raise (k : ErrorKind) (s : State) : Host.Outcome State Fault Refusal := .next (s.complete k.code)

/-! ## Acceptance and reset (70_reset_and_hazards.md) -/

/-- Acceptance of a command word (R380). -/
def State.accept (s : State) (w : Word) : State :=
  { s with lastcmd := w, inflight := some w, busy := true, done := false }

/-- The block after a reset (R370, R371): R65's record at its reset values. The parameters, the schedule, the bus data
and the draw counter are not the block's registers and stay (log 4). -/
def State.resetBlock (s : State) : State :=
  { State.resetWith s.params with draws := s.draws, schedule := s.schedule, rdata := s.rdata }

/-- The state with another list of what happens next (log 5). -/
def State.withSchedule (s : State) (es : List Event) : State := { s with schedule := es }

end Sys2Proof.Machine
end

