-- ==== Sys2Proof/Machine/Operands.lean ====
section
/-! DEFINITION. Every operand form of the commands (30_encoding.md R117, R118): the argument registers as numbers, the
4-byte type of ARG_TYPE, and the byte orders of the PNG stream (20_memory.md R85). There is no other form. -/

namespace Sys2Proof.Machine

/-- `BE32(x)`: the big-endian bytes of a word (00_scope.md R15). -/
def be32Bytes (x : Word) : List Byte :=
  [x.extractLsb' 24 8, x.extractLsb' 16 8, x.extractLsb' 8 8, x.extractLsb' 0 8]

/-- The word of four bytes, most significant first (R15). -/
def wordOf (b0 b1 b2 b3 : Byte) : Word := (b0 ++ b1) ++ (b2 ++ b3)

/-- `s[i..j)` (00_scope.md R14). -/
def slice (s : List Byte) (i j : Nat) : List Byte := (s.drop i).take (j - i)

/-- `be32(s)` of a 4-byte sequence (R15). It is used on four bytes only; a missing byte would count as 0. -/
def be32 (s : List Byte) : Word := wordOf (s.getD 0 0) (s.getD 1 0) (s.getD 2 0) (s.getD 3 0)

/-- The bytes of a type in stream order. -/
def ChunkType.bytes (t : ChunkType) : List Byte := [t.b0, t.b1, t.b2, t.b3]

/-- The type held by a 4-byte sequence. It is used on four bytes only; a missing byte would count as 0. -/
def ChunkType.ofBytes (s : List Byte) : ChunkType := ⟨s.getD 0 0, s.getD 1 0, s.getD 2 0, s.getD 3 0⟩

/-- `TB(t)`: the type packed in a register, byte 0 in bits 31:24 (00_scope.md R16). -/
def ChunkType.ofWord (w : Word) : ChunkType :=
  ⟨w.extractLsb' 24 8, w.extractLsb' 16 8, w.extractLsb' 8 8, w.extractLsb' 0 8⟩

/-- `be32` of a type's bytes: the register form of a type (10_state.md R43). -/
def ChunkType.toWord (t : ChunkType) : Word := wordOf t.b0 t.b1 t.b2 t.b3

/-- The order on types, on the raw bytes, byte 0 first (40_chunktype.md R149). No command uses it. -/
def ChunkType.lt (t u : ChunkType) : Bool :=
  t.b0 < u.b0 || (t.b0 == u.b0 && (t.b1 < u.b1 || (t.b1 == u.b1 && (t.b2 < u.b2 || (t.b2 == u.b2 && t.b3 < u.b3)))))

/-- The source range of a command lies inside the buffer (R117, 20_memory.md R94). -/
def State.sourceInBuf (s : State) : Bool := s.inBuf s.argAddr.toNat s.argLen.toNat

/-- The source bytes of a command, IOBUF[ARG_ADDR .. ARG_ADDR + ARG_LEN) (R117). -/
def State.sourceBytes (s : State) : List Byte := s.memRead s.argAddr.toNat s.argLen.toNat

/-- The draws counted for reading the source bytes (log 2). -/
def State.afterSource (s : State) : State := s.drawn s.argLen.toNat

/-- A natural number assigned to a register, taken modulo 2^32 (00_scope.md R13; log 11). -/
def toReg (n : Nat) : Word := BitVec.ofNat 32 n

end Sys2Proof.Machine
end

