-- ==== Sys2Proof/Machine/Flags.lean ====
section
/-! DEFINITION. Every flag computation of the spec: the ChunkType predicates (40_chunktype.md R140-R148), TYPE_FLAGS
(10_state.md R53), the STATUS word (R35-R38) and the interrupt output (60_exceptions.md R340). -/

namespace Sys2Proof.Machine

/-- An ASCII letter (40_chunktype.md R140; the code values are the spec's, log 14). -/
def isLetter (b : Byte) : Bool := (0x41 ≤ b && b ≤ 0x5A) || (0x61 ≤ b && b ≤ 0x7A)

/-- R141. -/
def ChunkType.allLetters (t : ChunkType) : Bool := isLetter t.b0 && isLetter t.b1 && isLetter t.b2 && isLetter t.b3

/-- R142: bit 5 of byte 0 is clear. -/
def ChunkType.isCritical (t : ChunkType) : Bool := !t.b0.getLsbD 5

/-- R143: bit 5 of byte 1 is clear. -/
def ChunkType.isPublic (t : ChunkType) : Bool := !t.b1.getLsbD 5

/-- R144: bit 5 of byte 2 is clear. -/
def ChunkType.isReservedBitValid (t : ChunkType) : Bool := !t.b2.getLsbD 5

/-- R145: bit 5 of byte 3 is set. -/
def ChunkType.isSafeToCopy (t : ChunkType) : Bool := t.b3.getLsbD 5

/-- R147: the aggregate validity is the reserved bit's alone. -/
def ChunkType.isValid (t : ChunkType) : Bool := t.isReservedBitValid

/-- R146: what ChunkType construction accepts. -/
def ChunkType.constructible (t : ChunkType) : Bool := t.allLetters && t.isReservedBitValid

/-- One bit of a register as a one-bit field. -/
def bitField (b : Bool) : BitVec 1 := BitVec.ofBool b

/-- The TYPE_FLAGS value of a type (R53, R150): bits 31:14 and 7:5 are 0. -/
def typeFlagsOf (t : ChunkType) : Word :=
  0#18 ++ bitField t.constructible ++ bitField t.isValid ++ bitField t.isSafeToCopy ++ bitField t.isReservedBitValid
    ++ bitField t.isPublic ++ bitField t.isCritical ++ 0#3 ++ bitField t.allLetters
    ++ bitField (isLetter t.b3) ++ bitField (isLetter t.b2) ++ bitField (isLetter t.b1) ++ bitField (isLetter t.b0)

/-- STATUS.ERR: ERRCODE is not 0 (10_state.md R37). -/
def State.err (s : State) : Bool := s.errcode != 0

/-- The STATUS word (R35-R38): PV, ERR, DONE, BUSY in bits 3:0, the rest 0. -/
def State.statusWord (s : State) : Word :=
  0#28 ++ bitField s.pv ++ bitField s.err ++ bitField s.done ++ bitField s.busy

/-- The CTRL word (R34): IE in bit 0, the rest 0. -/
def State.ctrlWord (s : State) : Word := 0#31 ++ bitField s.ie

/-- The interrupt output IRQ (60_exceptions.md R340). -/
def State.irq (s : State) : Bool := s.done && s.ie

end Sys2Proof.Machine
end

