-- ==== Sys2Proof/Machine/Control.lean ====
section
/-! DEFINITION. The control command (44_control.md). -/

namespace Sys2Proof.Machine

/-- NOP (R300): completion and nothing else. -/
def execNop (s : State) : Host.Outcome State Fault Refusal := succeed s

end Sys2Proof.Machine
end

