-- ==== Sys2Proof/Machine/Crc.lean ====
section
/-! DEFINITION. The CRC32 unit (41_crc32.md): the CRC function and the commands CRC_INIT, CRC_BYTE and CRC_BUF. -/

namespace Sys2Proof.Machine

/-- One shift of the reflected generator (41_crc32.md R171, R172; the constant is the spec's, log 14). -/
def crcShift (c : Word) : Word := if c.getLsbD 0 then (c >>> 1) ^^^ 0xEDB88320 else c >>> 1

/-- `crc_step(c, b)` (R172): the byte into the low bits, then eight shifts. -/
def crcStep (c : Word) (b : Byte) : Word :=
  crcShift (crcShift (crcShift (crcShift (crcShift (crcShift (crcShift (crcShift (c ^^^ b.setWidth 32))))))))

/-- Feed bytes in order. -/
def crcFeed (c : Word) (s : List Byte) : Word := s.foldl crcStep c

/-- `CRC32(s)` (R173). It reads no state. -/
def crc32 (s : List Byte) : Word := crcFeed 0xFFFFFFFF s ^^^ 0xFFFFFFFF

/-- An entry of the 256-entry table of R174. -/
def crcTable (n : Byte) : Word := crcStep 0 n

/-- The table form of the byte step (R174). -/
def crcTableStep (c : Word) (b : Byte) : Word := crcTable ((c ^^^ b.setWidth 32).setWidth 8) ^^^ (c >>> 8)

/-- CRC_INIT (R176). -/
def execCrcInit (s : State) : Host.Outcome State Fault Refusal := succeed { s with crcState := 0xFFFFFFFF }

/-- CRC_BYTE (R177). -/
def execCrcByte (imm8 : Byte) (s : State) : Host.Outcome State Fault Refusal :=
  succeed { s with crcState := crcStep s.crcState imm8 }

/-- CRC_BUF (R178). -/
def execCrcBuf (s : State) : Host.Outcome State Fault Refusal :=
  if s.sourceInBuf then succeed { s.afterSource with crcState := crcFeed s.crcState s.sourceBytes }
  else raise .rangeError s

end Sys2Proof.Machine
end

