-- ==== Sys2Proof/Machine/Framer.lean ====
section
/-! DEFINITION. The chunk framer and parser (42_chunk.md): serializing, constructing and parsing one chunk, and the
commands CHUNK_PARSE and CHUNK_BUILD. -/

namespace Sys2Proof.Machine

/-- The CRC of a chunk: over the type bytes, then the data (41_crc32.md R180). It never touches CRC_STATE. -/
def chunkCrc (t : ChunkType) (d : List Byte) : Word := crc32 (t.bytes ++ d)

/-- `SerChunk(c)` (R200, R202). -/
def serChunk (c : Chunk) : List Byte :=
  be32Bytes (toReg c.data.length) ++ c.type.bytes ++ c.data ++ be32Bytes c.crc

/-- `MkChunk(t, d)` (R203). -/
def mkChunk (t : ChunkType) (d : List Byte) : Except ErrorKind Chunk :=
  if t.constructible then .ok { type := t, data := d, crc := chunkCrc t d } else .error .invalidTypeByte

/-- `ParseChunk(s)` (R204-R209): the record and the number of bytes it occupied, or the first check that fails. -/
def parseChunk (s : List Byte) : Except ErrorKind (Chunk × Nat) :=
  let l := (be32 (slice s 0 4)).toNat
  let t := ChunkType.ofBytes (slice s 4 8)
  let d := slice s 8 (8 + l)
  let k := be32 (slice s (8 + l) (12 + l))
  if s.length < 12 then .error .bufferTooShort
  else if 12 + l > s.length then .error .bufferTooShort
  else if k ≠ chunkCrc t d then .error .invalidCrc
  else if t.constructible then .ok ({ type := t, data := d, crc := k }, 12 + l)
  else .error .invalidTypeByte

/-- CHUNK_PARSE (R210). -/
def execChunkParse (s : State) : Host.Outcome State Fault Refusal :=
  if s.sourceInBuf then
    match parseChunk s.sourceBytes with
    | .error k => raise k s.afterSource
    | .ok (c, m) =>
      succeed { s.afterSource with
        resLen := toReg c.data.length, resType := c.type.toWord, resCrc := c.crc, resOffset := toReg m }
  else raise .rangeError s

/-- CHUNK_BUILD (R211). The chunk is computed from the source before anything is written (00_scope.md R18). -/
def execChunkBuild (s : State) : Host.Outcome State Fault Refusal :=
  if s.sourceInBuf then
    if s.inBuf s.argDst.toNat (12 + s.argLen.toNat) then
      match mkChunk (ChunkType.ofWord s.argType) s.sourceBytes with
      | .error k => raise k s.afterSource
      | .ok c =>
        succeed { s.afterSource.memWrite s.argDst.toNat (serChunk c) with
          resLen := s.argLen, resType := s.argType, resCrc := c.crc, resOffset := toReg (12 + s.argLen.toNat) }
    else raise .rangeError s
  else raise .rangeError s

end Sys2Proof.Machine
end

