-- ==== Sys2Proof/Machine/Png.lean ====
section
/-! DEFINITION. The Png chunk sequence (43_png.md): parsing, serializing, searching and editing a chunk list, and the
commands PNG_CLEAR, PNG_PARSE, PNG_SERIALIZE, PNG_FIND, PNG_REMOVE, PNG_APPEND, PNG_INSERT, CHUNK_INFO, CHUNK_DATA. -/

namespace Sys2Proof.Machine

/-- The PNG signature `SIG` (R240). -/
def pngSignature : List Byte := [0x89, 0x50, 0x4E, 0x47, 0x0D, 0x0A, 0x1A, 0x0A]

/-- The type "IEND" (10_state.md R43). -/
def iendType : ChunkType := ⟨0x49, 0x45, 0x4E, 0x44⟩

/-- Why a file image failed to parse: the kind, the offset of the failing item and the number of chunks before it (R241). -/
structure PngError where
  kind   : ErrorKind
  offset : Nat
  count  : Nat
  deriving DecidableEq, Repr

/-- The chunk loop of `ParsePng` (R241): `rest` is the image from offset `p` on, `out` the chunks parsed so far. Each
turn removes at least 12 bytes, so a fuel of the image's length is never used up (`parseChunks_step` in Laws/Png.lean). -/
def parseChunks (ps : Params) : Nat → List Byte → Nat → List Chunk → Except PngError (List Chunk)
  | 0, _, _, out => .ok out
  | fuel + 1, rest, p, out =>
    if rest = [] then .ok out
    else
      match parseChunk rest with
      | .error k => .error { kind := k, offset := p, count := out.length }
      | .ok (c, m) =>
        if out.length + 1 > ps.maxChunks ∨ dataBytes out + c.data.length > ps.storeBytes then
          .error { kind := .capacityExceeded, offset := p, count := out.length }
        else parseChunks ps fuel (rest.drop m) (p + m) (out ++ [c])

/-- `ParsePng(s)` (R241-R245). -/
def parsePng (ps : Params) (s : List Byte) : Except PngError (List Chunk) :=
  if s.take 8 = pngSignature then parseChunks ps s.length (s.drop 8) 8 []
  else .error { kind := .invalidSignature, offset := 0, count := 0 }

/-- `SerPng(q)` (R246). -/
def serPng (q : List Chunk) : List Byte := pngSignature ++ q.flatMap serChunk

/-- The number of bytes of a chunk list without the signature (R246). -/
def serLength (q : List Chunk) : Nat := (q.map fun c => 12 + c.data.length).sum

/-- `Off(q, i)`: the offset of chunk `i` in `SerPng(q)` (R246). -/
def chunkOffset (q : List Chunk) (i : Nat) : Nat := 8 + serLength (q.take i)

/-- `FindFirst(q, t)` (R247): the least index whose record has type `t`, with that record. -/
def findFirst (t : ChunkType) : List Chunk → Option (Nat × Chunk)
  | [] => none
  | c :: q => if c.type = t then some (0, c) else (findFirst t q).map fun r => (r.1 + 1, r.2)

/-- `InsertPos(q)` (R248). -/
def insertPos (q : List Chunk) : Nat :=
  match q.getLast? with
  | some c => if c.type = iendType then q.length - 1 else q.length
  | none => 0

/-- A chunk list with a record put in at an index (R255). -/
def insertAt (q : List Chunk) (i : Nat) (c : Chunk) : List Chunk := q.take i ++ [c] ++ q.drop i

/-- A chunk list without the record at an index (R253). -/
def removeAt (q : List Chunk) (i : Nat) : List Chunk := q.take i ++ q.drop (i + 1)

/-- Add the chunk of ARG_TYPE and the source bytes to SEQ at an index: what PNG_APPEND (R254) and PNG_INSERT (R255)
share. The checks are in the order range, type, capacity (60_exceptions.md R336). -/
def addChunk (pos : Nat) (s : State) : Host.Outcome State Fault Refusal :=
  if s.sourceInBuf then
    match mkChunk (ChunkType.ofWord s.argType) s.sourceBytes with
    | .error k => raise k s.afterSource
    | .ok c =>
      if s.roomFor s.argLen.toNat then
        succeed { s.afterSource with
          seq := insertAt s.seq pos c
          resIndex := toReg pos, resLen := s.argLen, resType := s.argType, resCrc := c.crc }
      else raise .capacityExceeded s.afterSource
  else raise .rangeError s

/-- PNG_CLEAR (R249). -/
def execPngClear (s : State) : Host.Outcome State Fault Refusal := succeed { s with seq := [] }

/-- PNG_PARSE (R250). On a parse or capacity error RES_OFFSET and RES_INDEX are written and SEQ is kept (R244). -/
def execPngParse (s : State) : Host.Outcome State Fault Refusal :=
  if s.sourceInBuf then
    match parsePng s.params s.sourceBytes with
    | .error e => raise e.kind { s.afterSource with resOffset := toReg e.offset, resIndex := toReg e.count }
    | .ok q => succeed { s.afterSource with seq := q, resIndex := toReg q.length, resOffset := s.argLen }
  else raise .rangeError s

/-- PNG_SERIALIZE (R251). -/
def execPngSerialize (s : State) : Host.Outcome State Fault Refusal :=
  let out := serPng s.seq
  if s.inBuf s.argDst.toNat out.length then
    succeed { s.memWrite s.argDst.toNat out with resLen := toReg out.length, resIndex := toReg s.seq.length }
  else raise .rangeError s

/-- PNG_FIND (R252). -/
def execPngFind (s : State) : Host.Outcome State Fault Refusal :=
  match findFirst (ChunkType.ofWord s.argType) s.seq with
  | none => raise .chunkNotFound s
  | some (i, c) =>
    succeed { s with
      resIndex := toReg i, resLen := toReg c.data.length, resType := s.argType, resCrc := c.crc
      resOffset := toReg (chunkOffset s.seq i) }

/-- PNG_REMOVE (R253). -/
def execPngRemove (s : State) : Host.Outcome State Fault Refusal :=
  match findFirst (ChunkType.ofWord s.argType) s.seq with
  | none => raise .chunkNotFound s
  | some (i, c) =>
    succeed { s with
      seq := removeAt s.seq i
      resIndex := toReg i, resLen := toReg c.data.length, resType := s.argType, resCrc := c.crc }

/-- PNG_APPEND (R254): at the absolute end. -/
def execPngAppend (s : State) : Host.Outcome State Fault Refusal := addChunk s.seq.length s

/-- PNG_INSERT (R255): before a final IEND (90_conflicts.md C2). -/
def execPngInsert (s : State) : Host.Outcome State Fault Refusal := addChunk (insertPos s.seq) s

/-- CHUNK_INFO (R256). -/
def execChunkInfo (s : State) : Host.Outcome State Fault Refusal :=
  match s.seq[s.argIndex.toNat]? with
  | none => raise .rangeError s
  | some c =>
    succeed { s with
      resLen := toReg c.data.length, resType := c.type.toWord, resCrc := c.crc
      resOffset := toReg (chunkOffset s.seq s.argIndex.toNat) }

/-- CHUNK_DATA (R257). The index is checked before the destination. -/
def execChunkData (s : State) : Host.Outcome State Fault Refusal :=
  match s.seq[s.argIndex.toNat]? with
  | none => raise .rangeError s
  | some c =>
    if s.inBuf s.argDst.toNat c.data.length then
      succeed { s.memWrite s.argDst.toNat c.data with resLen := toReg c.data.length }
    else raise .rangeError s

end Sys2Proof.Machine
end

