-- ==== Sys2Proof/Machine/TypeCheck.lean ====
section
/-! DEFINITION. The ChunkType validator's command (40_chunktype.md). -/

namespace Sys2Proof.Machine

/-- The state with TYPE_FLAGS written for the type in ARG_TYPE (10_state.md R53). -/
def State.typeChecked (s : State) : State := { s with typeFlags := typeFlagsOf (ChunkType.ofWord s.argType) }

/-- TYPE_CHECK (R150): TYPE_FLAGS is written whether the type is constructible or not. -/
def execTypeCheck (s : State) : Host.Outcome State Fault Refusal :=
  if (ChunkType.ofWord s.argType).constructible then succeed s.typeChecked else raise .invalidTypeByte s.typeChecked

end Sys2Proof.Machine
end

