-- ==== Sys2Proof/Syntax.lean ====
section
/-! DEFINITION. The commands (30_encoding.md R115, spec/opcode_table.json) and the fields of a command word (R110). -/

namespace Sys2Proof

/-- A command: one constructor per row of spec/opcode_table.json. The only operand field of the command word is
IMM8, used by CRC_BYTE alone (R112, R118). -/
inductive Instr where
  | nop
  | crcInit
  | crcByte (imm8 : Byte)
  | crcBuf
  | typeCheck
  | chunkParse
  | chunkBuild
  | pngClear
  | pngParse
  | pngSerialize
  | pngFind
  | pngRemove
  | pngAppend
  | pngInsert
  | chunkInfo
  | chunkData
  deriving DecidableEq, Repr

/-- A command word cut into the three fields of format C (R110), before anything is known of their legality. -/
structure CommandFields where
  /-- Bits 7:0. -/
  opcode : BitVec 8
  /-- Bits 15:8. -/
  imm8   : BitVec 8
  /-- Bits 31:16. -/
  rsvd   : BitVec 16
  deriving DecidableEq, Repr

end Sys2Proof
end

