-- ==== Sys2Proof/Machine/Dispatch.lean ====
section
/-! DEFINITION. The meaning of each command (30_encoding.md R115): one direct call per constructor. -/

namespace Sys2Proof.Machine

def exec (i : Instr) (s : State) : Host.Outcome State Fault Refusal :=
  match i with
  | .nop => Sys2Proof.Machine.execNop s
  | .crcInit => Sys2Proof.Machine.execCrcInit s
  | .crcByte imm8 => Sys2Proof.Machine.execCrcByte imm8 s
  | .crcBuf => Sys2Proof.Machine.execCrcBuf s
  | .typeCheck => Sys2Proof.Machine.execTypeCheck s
  | .chunkParse => Sys2Proof.Machine.execChunkParse s
  | .chunkBuild => Sys2Proof.Machine.execChunkBuild s
  | .pngClear => Sys2Proof.Machine.execPngClear s
  | .pngParse => Sys2Proof.Machine.execPngParse s
  | .pngSerialize => Sys2Proof.Machine.execPngSerialize s
  | .pngFind => Sys2Proof.Machine.execPngFind s
  | .pngRemove => Sys2Proof.Machine.execPngRemove s
  | .pngAppend => Sys2Proof.Machine.execPngAppend s
  | .pngInsert => Sys2Proof.Machine.execPngInsert s
  | .chunkInfo => Sys2Proof.Machine.execChunkInfo s
  | .chunkData => Sys2Proof.Machine.execChunkData s

end Sys2Proof.Machine
end

