-- ==== Sys2Proof/WellFormed.lean ====
section
/-! DEFINITION. When raw data means something: the legality of a command word's fields (30_encoding.md R114, R119)
and the bounds on the parameters (00_scope.md R7). Every term of `Instr` is well formed by its type: its one operand,
IMM8, is a byte. -/

namespace Sys2Proof

/-- The sixteen opcodes of 30_encoding.md R115. -/
def listedOpcodes : List (BitVec 8) :=
  [0x00, 0x01, 0x02, 0x03, 0x10, 0x20, 0x21, 0x30, 0x31, 0x32, 0x33, 0x34, 0x35, 0x36, 0x37, 0x38]

/-- The opcode selects a command (R111, R115). -/
def CommandFields.opcodeListed (f : CommandFields) : Bool := listedOpcodes.contains f.opcode

/-- RSVD is 0 (R113). -/
def CommandFields.rsvdZero (f : CommandFields) : Bool := f.rsvd == 0

/-- IMM8 is 0 unless the command is CRC_BYTE (R112). -/
def CommandFields.imm8Allowed (f : CommandFields) : Bool := f.opcode == 0x02 || f.imm8 == 0

/-- A legal command word (R114). -/
def CommandFields.legal (f : CommandFields) : Bool := f.opcodeListed && f.rsvdZero && f.imm8Allowed

/-- The constraints on the parameters (00_scope.md R7). -/
abbrev Params.WF (p : Params) : Prop :=
  (20 ≤ p.bufBytes ∧ p.bufBytes ≤ 2 ^ 31 - 1) ∧
  (1 ≤ p.maxChunks ∧ p.maxChunks ≤ 2 ^ 32 - 1) ∧
  p.storeBytes ≤ 2 ^ 32 - 1

end Sys2Proof
end

