-- ==== Sys2Proof/Decode.lean ====
section
/-! DEFINITION. Decoding a command word (30_encoding.md R110-R120) and encoding a command (R116). The decoder is total
and rejects by name; every rejection completes with `BadCommand` (R114), which is the engine's doing, not the decoder's. -/

namespace Sys2Proof

/-- Why a command word is illegal (R119). All three complete with the same error kind; the names are the model's. -/
inductive DecodeReject where
  /-- OPCODE is none of R115's. -/
  | unlistedOpcode (opcode : BitVec 8)
  /-- RSVD is not 0. -/
  | reservedNonzero (rsvd : BitVec 16)
  /-- IMM8 is not 0 and the command is not CRC_BYTE. -/
  | immediateNonzero (imm8 : BitVec 8)
  deriving DecidableEq, Repr

/-- The fields of a command word (R110): OPCODE 7:0, IMM8 15:8, RSVD 31:16. -/
def commandFields (w : Word) : CommandFields :=
  { opcode := w.extractLsb' 0 8, imm8 := w.extractLsb' 8 8, rsvd := w.extractLsb' 16 16 }

/-- The command an opcode selects (R111, R115), given the word's IMM8. -/
def commandOfOpcode (opcode imm8 : BitVec 8) : Option Instr :=
  match opcode with
  | 0x00#8 => some .nop
  | 0x01#8 => some .crcInit
  | 0x02#8 => some (.crcByte imm8)
  | 0x03#8 => some .crcBuf
  | 0x10#8 => some .typeCheck
  | 0x20#8 => some .chunkParse
  | 0x21#8 => some .chunkBuild
  | 0x30#8 => some .pngClear
  | 0x31#8 => some .pngParse
  | 0x32#8 => some .pngSerialize
  | 0x33#8 => some .pngFind
  | 0x34#8 => some .pngRemove
  | 0x35#8 => some .pngAppend
  | 0x36#8 => some .pngInsert
  | 0x37#8 => some .chunkInfo
  | 0x38#8 => some .chunkData
  | _ => none

/-- Decode (R114). It depends on nothing but the word. -/
def decode (w : Word) : Except DecodeReject Instr :=
  let f := commandFields w
  match commandOfOpcode f.opcode f.imm8 with
  | none => .error (.unlistedOpcode f.opcode)
  | some i =>
    if f.rsvd ≠ 0 then .error (.reservedNonzero f.rsvd)
    else if f.opcode ≠ 0x02 ∧ f.imm8 ≠ 0 then .error (.immediateNonzero f.imm8)
    else .ok i

/-- The opcode of a command (R115). -/
def opcodeOf : Instr → BitVec 8
  | .nop          => 0x00
  | .crcInit      => 0x01
  | .crcByte _    => 0x02
  | .crcBuf       => 0x03
  | .typeCheck    => 0x10
  | .chunkParse   => 0x20
  | .chunkBuild   => 0x21
  | .pngClear     => 0x30
  | .pngParse     => 0x31
  | .pngSerialize => 0x32
  | .pngFind      => 0x33
  | .pngRemove    => 0x34
  | .pngAppend    => 0x35
  | .pngInsert    => 0x36
  | .chunkInfo    => 0x37
  | .chunkData    => 0x38

/-- The IMM8 field of a command (R112): CRC_BYTE's data byte, 0 for every other command. -/
def imm8Of : Instr → BitVec 8
  | .crcByte b => b
  | .nop | .crcInit | .crcBuf | .typeCheck | .chunkParse | .chunkBuild | .pngClear | .pngParse | .pngSerialize
  | .pngFind | .pngRemove | .pngAppend | .pngInsert | .chunkInfo | .chunkData => 0

/-- The word of a command (R116): RSVD = 0 above IMM8 above OPCODE. -/
def encode (i : Instr) : Word := (0#16 ++ imm8Of i) ++ opcodeOf i

/-- The command the decoder reads from a word numbered as spec/opcode_table.json numbers it. A command word is one
32-bit word taken whole from the CMD write (20_memory.md R99), so bit k of `w` is bit k of the word. -/
def decodeTableWord (nbits w : Nat) : Option Instr :=
  (decode (BitVec.ofNat 32 (w % 2 ^ nbits))).toOption

end Sys2Proof
end

