-- ==== Sys2Proof/Machine/Registers.lean ====
section
/-! DEFINITION. The register map (10_state.md R32-R55): the registers' offsets, what each reads, and what a host write
to each does (20_memory.md R91, 70_reset_and_hazards.md R380, R383, R384). -/

namespace Sys2Proof.Machine

/-- The registers of R32, in the order of its table. -/
inductive Reg where
  | id | version | ctrl | status | cmd | errcode
  | argAddr | argLen | argType | argIndex | argDst
  | resLen | resType | resCrc | resIndex | resOffset
  | crcState | crcResult | typeFlags | nchunks | storeUsed
  | capBuf | capChunks | capStore
  deriving DecidableEq, Repr

/-- Every register once. -/
def allRegs : List Reg :=
  [.id, .version, .ctrl, .status, .cmd, .errcode,
   .argAddr, .argLen, .argType, .argIndex, .argDst,
   .resLen, .resType, .resCrc, .resIndex, .resOffset,
   .crcState, .crcResult, .typeFlags, .nchunks, .storeUsed,
   .capBuf, .capChunks, .capStore]

/-- The byte offset of a register (R32). -/
def regOffset : Reg → Word
  | .id => 0x000 | .version => 0x004 | .ctrl => 0x008 | .status => 0x00C | .cmd => 0x010 | .errcode => 0x014
  | .argAddr => 0x018 | .argLen => 0x01C | .argType => 0x020 | .argIndex => 0x024 | .argDst => 0x028
  | .resLen => 0x030 | .resType => 0x034 | .resCrc => 0x038 | .resIndex => 0x03C | .resOffset => 0x040
  | .crcState => 0x044 | .crcResult => 0x048 | .typeFlags => 0x04C | .nchunks => 0x050 | .storeUsed => 0x054
  | .capBuf => 0x058 | .capChunks => 0x05C | .capStore => 0x060

/-- The register at an offset, if R32 lists one there. -/
def regAt? (offset : Word) : Option Reg := allRegs.find? fun r => regOffset r == offset

/-- The registers a host write never changes (20_memory.md R91). -/
def readOnlyReg : Reg → Bool
  | .id | .version | .errcode | .resLen | .resType | .resCrc | .resIndex | .resOffset
  | .crcState | .crcResult | .typeFlags | .nchunks | .storeUsed | .capBuf | .capChunks | .capStore => true
  | .ctrl | .status | .cmd | .argAddr | .argLen | .argType | .argIndex | .argDst => false

/-- What a read of a register returns (R33-R55). It is a function of the state and changes none (20_memory.md R92). -/
def State.readReg (s : State) : Reg → Word
  | .id        => 0x504E4743
  | .version   => 0x00000001
  | .ctrl      => s.ctrlWord
  | .status    => s.statusWord
  | .cmd       => s.lastcmd
  | .errcode   => s.errcode.setWidth 32
  | .argAddr   => s.argAddr
  | .argLen    => s.argLen
  | .argType   => s.argType
  | .argIndex  => s.argIndex
  | .argDst    => s.argDst
  | .resLen    => s.resLen
  | .resType   => s.resType
  | .resCrc    => s.resCrc
  | .resIndex  => s.resIndex
  | .resOffset => s.resOffset
  | .crcState  => s.crcState
  | .crcResult => s.crcState ^^^ 0xFFFFFFFF
  | .typeFlags => s.typeFlags
  | .nchunks   => toReg s.seq.length
  | .storeUsed => toReg (dataBytes s.seq)
  | .capBuf    => toReg s.params.bufBytes
  | .capChunks => toReg s.params.maxChunks
  | .capStore  => toReg s.params.storeBytes

/-- STATUS.PV is set and nothing else changes (10_state.md R38). -/
def State.violate (s : State) : State := { s with pv := true }

/-- A write that is lost, with a protocol violation, while BUSY = 1 (70_reset_and_hazards.md R383). -/
def State.unlessBusy (s t : State) : State := if s.busy then s.violate else t

/-- What a 32-bit host write of `v` to a register does. CTRL and STATUS take it at any time (R384); STATUS clears DONE
and PV where the written bit is 1 (R36, R38); CMD accepts a command (R380). -/
def State.writeReg (s : State) (r : Reg) (v : Word) : State :=
  match r with
  | .ctrl     => { s with ie := v.getLsbD 0 }
  | .status   => { s with done := s.done && !v.getLsbD 1, pv := s.pv && !v.getLsbD 3 }
  | .cmd      => s.unlessBusy (s.accept v)
  | .argAddr  => s.unlessBusy { s with argAddr := v }
  | .argLen   => s.unlessBusy { s with argLen := v }
  | .argType  => s.unlessBusy { s with argType := v }
  | .argIndex => s.unlessBusy { s with argIndex := v }
  | .argDst   => s.unlessBusy { s with argDst := v }
  | .id | .version | .errcode | .resLen | .resType | .resCrc | .resIndex | .resOffset
  | .crcState | .crcResult | .typeFlags | .nchunks | .storeUsed | .capBuf | .capChunks | .capStore => s

end Sys2Proof.Machine
end

