-- ==== Sys2Proof/Machine/Bus.lean ====
section
/-! DEFINITION. One access of the host bus (20_memory.md R80-R92): which accesses are protocol violations, and what the
others move. -/

namespace Sys2Proof.Machine

/-- The register a 32-bit access reaches: aligned and listed (R81, R89, R90). Offsets of 0x1000 and above are in no
register (log 7). -/
def Access.register? (a : Access) : Option Reg :=
  if a.width = .w32 ∧ a.offset.toNat % 4 = 0 then regAt? a.offset else none

/-- How many bytes a buffer access of this width moves; a 16-bit access moves none (R86). -/
def bufWidth : Width → Option Nat
  | .w8  => some 1
  | .w16 => none
  | .w32 => some 4

/-- The number of bytes a buffer access moves, or `none` when it is a protocol violation (R86): 16 bits wide, a 32-bit
access off a multiple of 4, or a byte outside the buffer. -/
def State.bufAccess? (s : State) (a : Access) : Option Nat :=
  match bufWidth a.width with
  | none => none
  | some n => if a.offset.toNat % n = 0 ∧ s.inBuf a.offset.toNat n then some n else none

/-- The bytes of `wdata` a buffer write stores, bits 7:0 first (R86). -/
def littleEndianBytes (v : Word) (n : Nat) : List Byte :=
  ([v.extractLsb' 0 8, v.extractLsb' 8 8, v.extractLsb' 16 8, v.extractLsb' 24 8] : List Byte).take n

/-- The `rdata` of a buffer read: the first byte in bits 7:0, and zeros above the bytes moved (R86). -/
def littleEndianWord (bs : List Byte) : Word := wordOf (bs.getD 3 0) (bs.getD 2 0) (bs.getD 1 0) (bs.getD 0 0)

/-- The bytes a host read of IOBUF returns: what the buffer holds, or any bytes while BUSY = 1 (70_reset_and_hazards.md
R385; log 3). -/
def State.hostBytes (s : State) (a n : Nat) : List Byte :=
  if s.busy then (List.range n).map fun i => Config.freeByte (s.draws + i) else s.memRead a n

/-- A protocol violation: PV is set, a read returns 0, a write changes nothing (R86, R89, R90). -/
def State.violation (s : State) (write : Bool) : State :=
  if write then s.violate else { s.violate with rdata := 0 }

/-- A legal access to a register. -/
def State.regAccess (s : State) (a : Access) (r : Reg) : State :=
  if a.write then s.writeReg r a.wdata else { s with rdata := s.readReg r }

/-- A legal access to `n` bytes of the buffer. A write while BUSY = 1 is lost and sets PV (R383). -/
def State.bufAccess (s : State) (a : Access) (n : Nat) : State :=
  if a.write then s.unlessBusy (s.memWrite a.offset.toNat (littleEndianBytes a.wdata n))
  else { s.drawn n with rdata := littleEndianWord (s.hostBytes a.offset.toNat n) }

/-- One host access. It always completes (R80). -/
def State.hostAccess (s : State) (a : Access) : State :=
  match a.space with
  | .reg =>
    match a.register? with
    | some r => s.regAccess a r
    | none => s.violation a.write
  | .buf =>
    match s.bufAccess? a with
    | some n => s.bufAccess a n
    | none => s.violation a.write

/-- Where an access lies in the host's own address map (R84; log 17). The block never sees this number. -/
def Access.hostAddress (a : Access) : Nat :=
  match a.space with
  | .reg => Config.regBase + a.offset.toNat
  | .buf => Config.bufBase + a.offset.toNat

/-- The 32-bit read of a register. -/
def readAccess (r : Reg) : Access := { space := .reg, offset := regOffset r, width := .w32, write := false, wdata := 0 }

/-- The 32-bit write of a word at a register offset. -/
def writeAccess (offset v : Word) : Access :=
  { space := .reg, offset := offset, width := .w32, write := true, wdata := v }

end Sys2Proof.Machine
end

