-- ==== Sys2Proof/Machine/Script.lean ====
section
/-! DEFINITION. The host script (30_encoding.md R121-R123): its lines, the bus accesses each stands for, and the four
codec sequences of 44_control.md R303-R306 as compositions of them. They add no behaviour to the block (R6). -/

namespace Sys2Proof.Machine

/-- A line of a host script: R121's lines, then R122's pseudo-instructions, then the three moves the sequences
of 44_control.md need (log 10). -/
inductive ScriptLine where
  | wr (r : Reg) (v : Word)
  | rd (r : Reg)
  | wb (off : Word) (v : Byte)
  | ww (off : Word) (v : Word)
  | rb (off : Word)
  | rw (off : Word)
  | cmd (i : Instr)
  | poll
  | exec (i : Instr)
  | wtype (r : Reg) (t : ChunkType)
  | wbytes (off : Word) (bs : List Byte)
  | wstr (off : Word) (text : String)
  | clrsts
  /-- `wr dst, src` of R304: the host writes to `dst` what it reads from `src`. -/
  | copyReg (dst src : Reg)
  /-- The host reads ERRCODE and stops if it is not 0 (44_control.md section 2). -/
  | stopOnError
  /-- The loop of R306 over the chunks of SEQ, with the scratch range at `dst`. -/
  | printChunks (dst : Word)
  deriving DecidableEq, Repr

/-- An access to the buffer space. -/
def bufferAccess (off : Word) (width : Width) (write : Bool) (v : Word) : Access :=
  { space := .buf, offset := off, width := width, write := write, wdata := v }

/-- `wbytes off, b0 b1 ...` (R122): one byte write each, at rising offsets. R122 does not say what `off+k` is when it
passes 0xFFFFFFFF. DESIGN CHOICE (log 19): the bus offset has 32 bits (20_memory.md R80), so it goes on at 0. -/
def writeBytesEvents : Word → List Byte → List Event
  | _, [] => []
  | off, b :: bs => .access (bufferAccess off .w8 true (b.setWidth 32)) :: writeBytesEvents (off + 1) bs

/-- `cmd` (R121): a write of the command's word to CMD. -/
def issue (i : Instr) : Event := .access (writeAccess (regOffset .cmd) (encode i))

/-- The bytes of a `wstr` text: the ASCII codes of its characters (R122). R122 gives none for a character that is not
ASCII. DESIGN CHOICE (log 19): its code point modulo 256. -/
def textBytes (text : String) : List Byte := text.toList.map fun ch => BitVec.ofNat 8 ch.toNat

/-- The events of a script line (R121, R122). -/
def ScriptLine.events : ScriptLine → List Event
  | .wr r v          => [.access (writeAccess (regOffset r) v)]
  | .rd r            => [.access (readAccess r)]
  | .wb off v        => [.access (bufferAccess off .w8 true (v.setWidth 32))]
  | .ww off v        => [.access (bufferAccess off .w32 true v)]
  | .rb off          => [.access (bufferAccess off .w8 false 0)]
  | .rw off          => [.access (bufferAccess off .w32 false 0)]
  | .cmd i           => [issue i]
  | .poll            => [.poll]
  | .exec i          => [issue i, .poll]
  | .wtype r t       => [.access (writeAccess (regOffset r) t.toWord)]
  | .wbytes off bs   => writeBytesEvents off bs
  | .wstr off text   => writeBytesEvents off (textBytes text)
  | .clrsts          => [.access (writeAccess (regOffset .status) 0x0000000A)]
  | .copyReg dst src => [.access (readAccess src), .forward (regOffset dst)]
  | .stopOnError     => [.stopOnError]
  | .printChunks dst => [.printChunks dst]

/-- The encoding of a host script (R123): the events of its lines in order. -/
def scriptEvents (p : List ScriptLine) : List Event := p.flatMap ScriptLine.events

/-- `exec`, then the host's check of ERRCODE (44_control.md section 2). -/
def execChecked (i : Instr) : List ScriptLine := [.exec i, .stopOnError]

/-- The first step of all four sequences: PNG_PARSE of the image at `a` of `n` bytes. -/
def parseImage (a n : Word) : List ScriptLine := [.wr .argAddr a, .wr .argLen n] ++ execChecked .pngParse

/-- Encode (R303). -/
def encodeScript (a n : Word) (t : ChunkType) (m l d : Word) : List ScriptLine :=
  parseImage a n ++ [.wr .argType t.toWord, .wr .argAddr m, .wr .argLen l] ++ execChecked .pngInsert
    ++ [.wr .argDst d] ++ execChecked .pngSerialize

/-- Decode (R304). The UTF-8 decoding of the bytes is the host's (00_scope.md R5). -/
def decodeScript (a n : Word) (t : ChunkType) (d : Word) : List ScriptLine :=
  parseImage a n ++ [.wr .argType t.toWord] ++ execChecked .pngFind
    ++ [.copyReg .argIndex .resIndex, .wr .argDst d] ++ execChecked .chunkData

/-- Remove (R305). -/
def removeScript (a n : Word) (t : ChunkType) (d : Word) : List ScriptLine :=
  parseImage a n ++ [.wr .argType t.toWord] ++ execChecked .pngRemove
    ++ [.wr .argDst d] ++ execChecked .pngSerialize

/-- One turn of R306's loop: chunk `i` is described, then its data is copied to the scratch range at `dst`. -/
def printChunk (dst : Word) (i : Nat) : List ScriptLine :=
  [.wr .argIndex (toReg i)] ++ execChecked .chunkInfo ++ [.rd .resType, .wr .argDst dst] ++ execChecked .chunkData

/-- The events of R306's loop, for `i` from 0 to `count - 1`. -/
def printLoop (dst : Word) (count : Nat) : List Event := scriptEvents ((List.range count).flatMap (printChunk dst))

/-- Print (R306): the image is parsed, and the loop runs over the NCHUNKS the host then reads. -/
def printScript (a n dst : Word) : List ScriptLine := parseImage a n ++ [.printChunks dst]

end Sys2Proof.Machine
end

