-- ==== Sys2Proof/Machine/Engine.lean ====
section
/-! DEFINITION. The two agents (70_reset_and_hazards.md R376): the engine step, and what each event of the schedule does. -/

namespace Sys2Proof.Machine

/-- The completion of a command word (R381): its meaning, or `BadCommand` for an illegal word (60_exceptions.md R332). -/
def runWord (w : Word) (s : State) : Host.Outcome State Fault Refusal :=
  match decode w with
  | .ok i => exec i s
  | .error _ => raise .badCommand s

/-- One engine step. With no command in flight there is none (R376), and nothing changes (60_exceptions.md R358). -/
def engineStep (s : State) : Host.Outcome State Fault Refusal :=
  match s.inflight with
  | none => .next s
  | some w => runWord w s

/-- Go on from a next state; a fault or a refusal stands. -/
def andThen (o : Host.Outcome State Fault Refusal) (f : State → State) : Host.Outcome State Fault Refusal :=
  match o with
  | .next s => .next (f s)
  | .fault r => .fault r
  | .refused r => .refused r

/-- A host write of STATUS with bit 1 = 1, which clears DONE (10_state.md R36). -/
def Access.clearsDone (a : Access) : Bool :=
  a.space = .reg ∧ a.register? = some .status ∧ a.write = true ∧ a.wdata.getLsbD 1 = true

/-- A host access and a completion in one clock cycle (60_exceptions.md R337): two atomic steps in either order, the
completion second when the access clears DONE (log 9). With no command in flight at the start of the cycle there is no
completion in it (70_reset_and_hazards.md R376). -/
def coincideStep (a : Access) (engineFirst : Bool) (s : State) : Host.Outcome State Fault Refusal :=
  if s.inflight = none then .next (s.hostAccess a)
  else if engineFirst ∧ ¬ a.clearsDone then andThen (engineStep s) fun t => t.hostAccess a
  else engineStep (s.hostAccess a)

/-- A clock edge with RST = 1 (70_reset_and_hazards.md R370): the block is reset, an access in the same cycle has no
effect, and a read returns any word (log 4). -/
def resetStep (a : Option Access) (s : State) : State :=
  let t := s.resetBlock
  match a with
  | some a => if a.write then t else { t.drawn 1 with rdata := Config.freeWord t.draws }
  | none => t

/-- One turn of `poll` (30_encoding.md R122): a read of STATUS; while DONE = 0 the engine gets a step and the host reads
again (log 10). -/
def pollStep (s : State) : State :=
  let t := s.hostAccess (readAccess .status)
  if t.rdata.getLsbD 1 then t else t.withSchedule (.engine :: .poll :: t.schedule)

/-- The host writes the word it read last to a register (44_control.md R304; log 10). -/
def forwardStep (offset : Word) (s : State) : State := s.hostAccess (writeAccess offset s.rdata)

/-- The host reads ERRCODE and ends its program there if it is not 0 (44_control.md section 2; log 10). -/
def stopOnErrorStep (s : State) : State :=
  let t := s.hostAccess (readAccess .errcode)
  if t.rdata = 0 then t else t.withSchedule []

/-- The host reads NCHUNKS and goes on with R306's loop that many times (44_control.md R306; log 10). -/
def printStep (dst : Word) (s : State) : State :=
  let t := s.hostAccess (readAccess .nchunks)
  t.withSchedule (printLoop dst t.rdata.toNat ++ t.schedule)

/-- What an event does. -/
def eventStep (e : Event) (s : State) : Host.Outcome State Fault Refusal :=
  match e with
  | .access a      => .next (s.hostAccess a)
  | .engine        => engineStep s
  | .coincide a ef => coincideStep a ef s
  | .reset a       => .next (resetStep a s)
  | .poll          => .next (pollStep s)
  | .forward off   => .next (forwardStep off s)
  | .stopOnError   => .next (stopOnErrorStep s)
  | .printChunks d => .next (printStep d s)

/-- One step of the machine: the next event of the schedule, or an engine step when none is left, so that every
accepted command completes (70_reset_and_hazards.md R382; log 5). -/
def machineStep (s : State) : Host.Outcome State Fault Refusal :=
  match s.schedule with
  | [] => engineStep s
  | e :: rest => eventStep e (s.withSchedule rest)

/-- Accept a word and give the engine the next step: how a word comes to be the command `step` runs next (log 6). -/
def State.withCommand (s : State) (w : Word) : State := (s.accept w).withSchedule (.engine :: s.schedule)

end Sys2Proof.Machine
end

