-- ==== Sys2Proof/Machine/Step.lean ====
section
/-! DEFINITION. One step of pngme-core, and the host's way to place a command word where `step` takes its next one. -/

namespace Sys2Proof.Machine

/-- One step: `machineStep` of Engine.lean. -/
def step (s : State) : Host.Outcome State Fault Refusal := machineStep s

/-- The block fetches nothing (10_state.md R31): a command comes to the engine by its acceptance (R39, R380). So the
word is accepted, and the engine takes the next step (log 6). -/
def State.withFetchWord (s : State) (nbits w : Nat) : State := s.withCommand (BitVec.ofNat 32 (w % 2 ^ nbits))

end Sys2Proof.Machine
end

