-- ==== Sys2Proof/Safety.lean ====
section
/-! DEFINITION. What the statements are said in: the invariant of the machine (10_state.md R57, R58, R63, R65), and the
table of what each command may write (30_encoding.md R115). -/

namespace Sys2Proof.Machine

/-- A record of SEQ as R57 requires it. -/
structure Chunk.WF (c : Chunk) : Prop where
  crc           : c.crc = chunkCrc c.type c.data
  constructible : c.type.constructible = true
  length        : c.data.length ≤ 2 ^ 31 - 1

/-- The invariant of the machine, clause by clause. -/
structure State.Inv (s : State) : Prop where
  /-- The parameters are in their bounds (00_scope.md R7). -/
  params    : s.params.WF
  /-- IOBUF is in its canonical form. -/
  memWF     : Memory.wf s.iobuf
  /-- Only offsets inside the buffer are written (20_memory.md R82). -/
  memBound  : ∀ a, s.params.bufBytes ≤ a → Memory.get? s.iobuf a = none
  /-- Every record of SEQ is well formed (R57). -/
  seqWF     : ∀ c ∈ s.seq, c.WF
  /-- SEQ holds at most MAX_CHUNKS records (R58). -/
  seqCount  : s.seq.length ≤ s.params.maxChunks
  /-- SEQ holds at most STORE_BYTES data bytes (R58). -/
  seqStore  : dataBytes s.seq ≤ s.params.storeBytes
  /-- `busy = 1` exactly when `inflight` is not none (R65). -/
  busyIff   : s.busy = s.inflight.isSome
  /-- The word in flight is the last accepted one (R39, R63). -/
  inflight  : ∀ w, s.inflight = some w → s.lastcmd = w
  /-- DONE is 0 while a command is in flight (70_reset_and_hazards.md R385). -/
  notDone   : s.busy = true → s.done = false
  /-- ERRCODE holds a code the block produces (60_exceptions.md R320, R325, R327). -/
  errcode   : s.errcode.toNat ∈ [0, 1, 2, 3, 4, 6, 8, 9, 10]
  /-- The reserved fields of TYPE_FLAGS are 0 (R53). -/
  typeFlags : s.typeFlags &&& 0xFFFFC0E0 = 0

/-- The protocol violations of 20_memory.md R86, R89 and R90, in their words. Offsets of 0x1000 and above are unlisted
like the others (log 7). A write that R383 loses while BUSY = 1 is one too, and is not meant here. -/
def State.isViolation (s : State) (a : Access) : Prop :=
  (a.space = .reg ∧ (a.width ≠ .w32 ∨ a.offset.toNat % 4 ≠ 0 ∨ ∀ r, regOffset r ≠ a.offset)) ∨
  (a.space = .buf ∧ (a.width = .w16 ∨
    (a.width = .w32 ∧ (a.offset.toNat % 4 ≠ 0 ∨ s.params.bufBytes < a.offset.toNat + 4)) ∨
    (a.width = .w8 ∧ s.params.bufBytes ≤ a.offset.toNat)))

/-- The registers whose value a command's own effect may change (R115, with the registers that are functions of what
it writes: 10_state.md R52, R54); STATUS and ERRCODE are written by every completion and are not listed. -/
def writtenRegs : Instr → List Reg
  | .nop => []
  | .crcInit | .crcByte _ | .crcBuf => [.crcState, .crcResult]
  | .typeCheck => [.typeFlags]
  | .chunkParse | .chunkBuild => [.resLen, .resType, .resCrc, .resOffset]
  | .pngClear => [.nchunks, .storeUsed]
  | .pngParse => [.nchunks, .storeUsed, .resIndex, .resOffset]
  | .pngSerialize => [.resLen, .resIndex]
  | .pngFind => [.resIndex, .resLen, .resType, .resCrc, .resOffset]
  | .pngRemove | .pngAppend | .pngInsert => [.nchunks, .storeUsed, .resIndex, .resLen, .resType, .resCrc]
  | .chunkInfo => [.resLen, .resType, .resCrc, .resOffset]
  | .chunkData => [.resLen]

/-- The registers a command may change when it completes with an error (60_exceptions.md R330). -/
def writtenOnError : Instr → List Reg
  | .typeCheck => [.typeFlags]
  | .pngParse => [.resIndex, .resOffset]
  | .nop | .crcInit | .crcByte _ | .crcBuf | .chunkParse | .chunkBuild | .pngClear | .pngSerialize
  | .pngFind | .pngRemove | .pngAppend | .pngInsert | .chunkInfo | .chunkData => []

/-- The offset and the number of the IOBUF bytes a command stores, computed as its meaning computes them; `none` for a
command that stores none (R115). -/
def storedRange (i : Instr) (s : State) : Option (Nat × Nat) :=
  match i with
  | .chunkBuild   => some (s.argDst.toNat, 12 + s.argLen.toNat)
  | .pngSerialize => some (s.argDst.toNat, (serPng s.seq).length)
  | .chunkData    => (s.seq[s.argIndex.toNat]?).map fun c => (s.argDst.toNat, c.data.length)
  | .nop | .crcInit | .crcByte _ | .crcBuf | .typeCheck | .chunkParse | .pngClear | .pngParse
  | .pngFind | .pngRemove | .pngAppend | .pngInsert | .chunkInfo => none

/-- The commands whose own effect is on SEQ (R115). -/
def editsSeq : Instr → Bool
  | .pngClear | .pngParse | .pngRemove | .pngAppend | .pngInsert => true
  | .nop | .crcInit | .crcByte _ | .crcBuf | .typeCheck | .chunkParse | .chunkBuild | .pngSerialize
  | .pngFind | .chunkInfo | .chunkData => false

/-- The commands of the CRC32 unit: the only ones that read or write CRC_STATE (10_state.md R51, R62). -/
def usesCrcUnit : Instr → Bool
  | .crcInit | .crcByte _ | .crcBuf => true
  | .nop | .typeCheck | .chunkParse | .chunkBuild | .pngClear | .pngParse | .pngSerialize
  | .pngFind | .pngRemove | .pngAppend | .pngInsert | .chunkInfo | .chunkData => false

/-- The error kinds a legal command can report (60_exceptions.md R336, without BadCommand, which is decode's). -/
def reportedErrors : Instr → List ErrorKind
  | .nop | .crcInit | .crcByte _ | .pngClear => []
  | .crcBuf | .pngSerialize | .chunkInfo | .chunkData => [.rangeError]
  | .typeCheck => [.invalidTypeByte]
  | .chunkParse => [.rangeError, .bufferTooShort, .invalidCrc, .invalidTypeByte]
  | .chunkBuild => [.rangeError, .invalidTypeByte]
  | .pngParse => [.rangeError, .invalidSignature, .bufferTooShort, .invalidCrc, .invalidTypeByte, .capacityExceeded]
  | .pngFind | .pngRemove => [.chunkNotFound]
  | .pngAppend | .pngInsert => [.rangeError, .invalidTypeByte, .capacityExceeded]

/-- From one state to another by commands that feed bytes to the CRC32 unit, in order, with anything that feeds nothing
in between: host accesses, commands of the other units, and a CRC_BUF that raises an error (41_crc32.md R179). -/
inductive Feeds : List Byte → State → State → Prop where
  | none (s : State) : Feeds [] s s
  | byte {b : Byte} {bs : List Byte} {s t u : State} :
      exec (.crcByte b) s = .next t → Feeds bs t u → Feeds (b :: bs) s u
  | buf {bs : List Byte} {s t u : State} :
      exec .crcBuf s = .next t → t.errcode = 0 → Feeds bs t u → Feeds (s.sourceBytes ++ bs) s u
  | failed {bs : List Byte} {s t u : State} :
      exec .crcBuf s = .next t → t.errcode ≠ 0 → Feeds bs t u → Feeds bs s u
  | other {i : Instr} {bs : List Byte} {s t u : State} :
      usesCrcUnit i = false → exec i s = .next t → Feeds bs t u → Feeds bs s u
  | host {a : Access} {bs : List Byte} {s u : State} : Feeds bs (s.hostAccess a) u → Feeds bs s u

/-- The bytes of a sequence stand in IOBUF from an offset on. -/
def State.holds (s : State) (a : Nat) (bytes : List Byte) : Prop :=
  ∀ k, k < bytes.length → Memory.get? s.iobuf (a + k) = bytes[k]?

end Sys2Proof.Machine
end

