-- ==== Sys2Proof/Certificates/Slice0/Obligations.lean ====
section
/-! DEFINITION. The statements about the model, for the provers. Each docstring names the rule of spec/ it formalises.
A statement whose conclusion is `exec i s = .next …` is also the statement of where the command completes. -/

open Sys2Proof Sys2Proof.Machine

/-! ## Encoding (30_encoding.md) -/

/-- One word of each of the sixteen commands, written out from R110 and R115, decodes to the command it stands for. -/
def Obligations.WrittenOutWordsDecode : Prop :=
  decode 0x00000000 = .ok .nop ∧ decode 0x00000001 = .ok .crcInit ∧ decode 0x00004902 = .ok (.crcByte 0x49) ∧
  decode 0x00000003 = .ok .crcBuf ∧ decode 0x00000010 = .ok .typeCheck ∧ decode 0x00000020 = .ok .chunkParse ∧
  decode 0x00000021 = .ok .chunkBuild ∧ decode 0x00000030 = .ok .pngClear ∧ decode 0x00000031 = .ok .pngParse ∧
  decode 0x00000032 = .ok .pngSerialize ∧ decode 0x00000033 = .ok .pngFind ∧ decode 0x00000034 = .ok .pngRemove ∧
  decode 0x00000035 = .ok .pngAppend ∧ decode 0x00000036 = .ok .pngInsert ∧ decode 0x00000037 = .ok .chunkInfo ∧
  decode 0x00000038 = .ok .chunkData

/-- R116: decoding and encoding undo one another, in both directions, for every command and every IMM8; and a word
decodes to some command exactly when it matches a row's mask and match. The spec marks R116 as derived, from
R110-R115. -/
def Obligations.DecodeAndEncodeAgree : Prop :=
  (∀ i, decode (encode i) = .ok i) ∧
  (∀ w i, decode w = .ok i → encode i = w) ∧
  (∀ w, (∃ i, decode w = .ok i) ↔
    (∃ o ∈ listedOpcodes, o ≠ 0x02 ∧ w &&& 0xFFFFFFFF = o.setWidth 32) ∨ w &&& 0xFFFF00FF = 0x00000002)

/-- R114: a word is legal exactly when its fields are, and an illegal word is accepted like any other and completes with
BadCommand and no other effect. -/
def Obligations.LegalWordsAndBadCommand : Prop :=
  (∀ w : Word, (∃ i, decode w = .ok i) ↔
    w.extractLsb' 0 8 ∈ listedOpcodes ∧ w.extractLsb' 16 16 = 0 ∧ (w.extractLsb' 0 8 = 0x02 ∨ w.extractLsb' 8 8 = 0)) ∧
  (∀ (s : State) (w : Word), s.busy = false → (¬ ∃ i, decode w = .ok i) →
    s.hostAccess (writeAccess 0x010 w)
      = { s with lastcmd := w, inflight := some w, busy := true, done := false } ∧
    engineStep (s.hostAccess (writeAccess 0x010 w))
      = .next { s with lastcmd := w, inflight := none, busy := false, done := true, errcode := 8 })

/-! ## Steps and the invariant -/

/-- 70_reset_and_hazards.md R381, for the model's step: when a word that decodes to a command is in flight and the
engine moves next (its event is first in the schedule, or the schedule is empty), the step is that command's meaning.
The schedule, and so which agent moves next, is the model's own field (log 5). -/
def Obligations.StepRunsDecodedCommand : Prop :=
  ∀ (s : State) (w : Word) (i : Instr), s.inflight = some w → decode w = .ok i →
    (s.schedule = [] → step s = exec i s) ∧
    (∀ rest, s.schedule = .engine :: rest → step s = exec i (s.withSchedule rest))

/-- 20_memory.md R95, 70_reset_and_hazards.md R376: a step whose first event is a host access is that access, and a
step with nothing scheduled and no command in flight changes nothing (60_exceptions.md R358). The schedule, and so
which agent moves next, is the model's own field (log 5). -/
def Obligations.StepPerformsHostAccess : Prop :=
  (∀ (s : State) (a : Access) (rest : List Event), s.schedule = .access a :: rest →
    step s = .next ((s.withSchedule rest).hostAccess a)) ∧
  (∀ s : State, s.schedule = [] → s.inflight = none → step s = .next s)

/-- Every step answers a next state: no access, completion, reset or idle step stops the machine. This is the model's
own log 18 (DEDUCED, unsafe), from 20_memory.md R80 for accesses, 60_exceptions.md R330, R334 and R358 for completions
and for a step with nothing in flight, and 70_reset_and_hazards.md R370 and R376 for resets and for what an event is.
That a step with nothing scheduled is the engine's is log 5; that the host's own moves are events is log 10. -/
def Obligations.EveryStepAnswersNext : Prop :=
  ∀ s : State, ∃ t, step s = .next t

/-- Every step keeps the invariant: the parameters' bounds, the buffer's canonical form and extent, SEQ's records and
capacities (10_state.md R57, R58), BUSY and INFLIGHT (R65), DONE = 0 while BUSY, the codes ERRCODE can hold, and the
reserved fields of TYPE_FLAGS. -/
def Obligations.StepKeepsInvariant : Prop :=
  ∀ s t : State, s.Inv → step s = .next t → t.Inv

/-- The reset state meets the invariant, for every choice of parameters in R7's bounds. That `State.reset` has the
parameters RC1 is the model's choice (log 1). -/
def Obligations.ResetMeetsInvariant : Prop :=
  State.reset.Inv ∧ ∀ p : Params, p.WF → (State.resetWith p).Inv

/-- 70_reset_and_hazards.md R370 and R371: RST = 1 puts every register at its reset value, empties INFLIGHT and SEQ and
unwrites IOBUF, whatever was in flight; an access in the same cycle has no effect. That a reset is an event of the
schedule, and that the rest of the schedule follows it, is the model's choice (log 5, log 4); so is that the parameters
are a field that a reset keeps (log 1, log 4). -/
def Obligations.ResetRestoresResetState : Prop :=
  ∀ (s : State) (a : Option Access) (rest : List Event), s.schedule = .reset a :: rest →
    ∃ t, step s = .next t ∧
      t.readReg .ctrl = 0 ∧ t.readReg .status = 0 ∧ t.readReg .cmd = 0 ∧ t.readReg .errcode = 0 ∧
      (∀ r ∈ [Reg.argAddr, .argLen, .argType, .argIndex, .argDst, .resLen, .resType, .resCrc, .resIndex, .resOffset,
        .typeFlags, .nchunks, .storeUsed], t.readReg r = 0) ∧
      t.readReg .crcState = 0xFFFFFFFF ∧ t.readReg .crcResult = 0 ∧
      t.readReg .id = 0x504E4743 ∧ t.readReg .version = 1 ∧
      (∀ r ∈ [Reg.capBuf, .capChunks, .capStore], t.readReg r = s.readReg r) ∧
      t.inflight = none ∧ t.seq = [] ∧ (∀ k, Memory.get? t.iobuf k = none) ∧ t.irq = false ∧ t.schedule = rest

/-- 70_reset_and_hazards.md R382 with R381: every accepted command completes, whatever the host does meanwhile. With a
word in flight (so BUSY = 1 and DONE = 0, which the invariant says) and no reset scheduled, a bounded run ends in the
completion `u` of that word, on a state `c` that has kept the command's operands; where the completion shares its cycle
with a host access (60_exceptions.md R337) that access may follow it. A reset is left out because it abandons the command
(R371). The schedule, and the engine's moving when it is empty, are the model's own (log 5, log 9, log 15); so are the
host moves that lengthen a schedule, which the 4 allows for (log 10). -/
def Obligations.AcceptedCommandCompletes : Prop :=
  ∀ (s : State) (w : Word), s.inflight = some w → s.busy = true → s.done = false →
    (∀ a, Event.reset a ∉ s.schedule) →
    ∃ k ≤ s.schedule.length + 4, ∃ t c u : State, Sys2Proof.core.run k s = .next t ∧
      runWord w c = .next u ∧ u.inflight = none ∧ u.busy = false ∧ u.done = true ∧
      (t = u ∨ ∃ a, t = u.hostAccess a) ∧
      c.inflight = some w ∧ c.lastcmd = s.lastcmd ∧ c.argAddr = s.argAddr ∧ c.argLen = s.argLen ∧
      c.argType = s.argType ∧ c.argIndex = s.argIndex ∧ c.argDst = s.argDst ∧ c.iobuf = s.iobuf ∧ c.seq = s.seq ∧
      c.crcState = s.crcState ∧ c.params = s.params

/-- 60_exceptions.md R337: where a host write of STATUS with DONE = 1 and a completion fall in one cycle, DONE reads
1 afterwards, in whichever order the cycle lists them. The event that lists the two together is the model's own (log
9). -/
def Obligations.CoincidingCompletionIsSecond : Prop :=
  ∀ (s : State) (w v : Word) (first : Bool), s.inflight = some w → v.getLsbD 1 = true →
    ∃ t, coincideStep (writeAccess (regOffset .status) v) first s = .next t ∧
      (t.readReg .status).getLsbD 1 = true ∧ t.inflight = none

/-! ## The host bus -/

/-- 20_memory.md R89. A 32-bit aligned access inside the 4096 bytes of the register space; offsets above it are log
7's. -/
def Obligations.UnlistedOffsetIsViolation : Prop :=
  ∀ (s : State) (a : Access), a.space = .reg → a.width = .w32 → a.offset.toNat % 4 = 0 → a.offset.toNat < 0x1000 →
    (∀ r, regOffset r ≠ a.offset) →
    s.hostAccess a = if a.write then { s with pv := true } else { s with pv := true, rdata := 0 }

/-- 20_memory.md R90. -/
def Obligations.NarrowOrMisalignedRegisterAccessIsViolation : Prop :=
  ∀ (s : State) (a : Access), a.space = .reg → (a.width ≠ .w32 ∨ a.offset.toNat % 4 ≠ 0) →
    s.hostAccess a = if a.write then { s with pv := true } else { s with pv := true, rdata := 0 }

/-- 10_state.md R32: the registers' offsets; a 32-bit read at a listed offset returns that offset's register and changes
nothing else (20_memory.md R92); and what the registers that are constants (R33), stored words (R39, R41-R51, R53) or the
complement of CRC_STATE (R52) read in every state. -/
def Obligations.RegisterReadReturnsItsValue : Prop :=
  ([Reg.id, .version, .ctrl, .status, .cmd, .errcode, .argAddr, .argLen, .argType, .argIndex, .argDst, .resLen, .resType,
      .resCrc, .resIndex, .resOffset, .crcState, .crcResult, .typeFlags, .nchunks, .storeUsed, .capBuf, .capChunks,
      .capStore].map regOffset
    = [0x000, 0x004, 0x008, 0x00C, 0x010, 0x014, 0x018, 0x01C, 0x020, 0x024, 0x028, 0x030, 0x034, 0x038, 0x03C, 0x040,
      0x044, 0x048, 0x04C, 0x050, 0x054, 0x058, 0x05C, 0x060]) ∧
  (∀ (s : State) (r : Reg) (v : Word),
    s.hostAccess { space := .reg, offset := regOffset r, width := .w32, write := false, wdata := v }
      = { s with rdata := s.readReg r }) ∧
  (∀ s : State,
    s.readReg .id = 0x504E4743 ∧ s.readReg .version = 0x00000001 ∧ s.readReg .cmd = s.lastcmd ∧
    s.readReg .argAddr = s.argAddr ∧ s.readReg .argLen = s.argLen ∧ s.readReg .argType = s.argType ∧
    s.readReg .argIndex = s.argIndex ∧ s.readReg .argDst = s.argDst ∧
    s.readReg .resLen = s.resLen ∧ s.readReg .resType = s.resType ∧ s.readReg .resCrc = s.resCrc ∧
    s.readReg .resIndex = s.resIndex ∧ s.readReg .resOffset = s.resOffset ∧
    s.readReg .crcState = s.crcState ∧ s.readReg .crcResult = s.crcState ^^^ 0xFFFFFFFF ∧
    s.readReg .typeFlags = s.typeFlags)

/-- 20_memory.md R91: a write to a read-only register changes nothing and sets no PV; a write to a reserved field of CTRL
or STATUS changes nothing. -/
def Obligations.ReadOnlyWriteChangesNothing : Prop :=
  (∀ (s : State) (v : Word), ∀ r ∈ [Reg.id, .version, .errcode, .resLen, .resType, .resCrc, .resIndex, .resOffset,
      .crcState, .crcResult, .typeFlags, .nchunks, .storeUsed, .capBuf, .capChunks, .capStore],
    s.hostAccess (writeAccess (regOffset r) v) = s) ∧
  (∀ (s : State) (v : Word), s.hostAccess (writeAccess 0x008 v) = s.hostAccess (writeAccess 0x008 (v &&& 0x00000001)) ∧
    s.hostAccess (writeAccess 0x00C v) = s.hostAccess (writeAccess 0x00C (v &&& 0x0000000F)))

/-- 70_reset_and_hazards.md R384, with 10_state.md R34, R36 and R38: CTRL and STATUS writes take effect at any time,
BUSY or not, and change their writable fields only; a write to a read-only register is ignored without PV. -/
def Obligations.ControlAndStatusWritesAlwaysTake : Prop :=
  ∀ (s : State) (v : Word),
    s.hostAccess (writeAccess 0x008 v) = { s with ie := v.getLsbD 0 } ∧
    s.hostAccess (writeAccess 0x00C v)
      = { s with done := if v.getLsbD 1 then false else s.done, pv := if v.getLsbD 3 then false else s.pv } ∧
    ∀ r, readOnlyReg r = true → s.hostAccess (writeAccess (regOffset r) v) = s

/-- 10_state.md R34-R38 and R40: the fields of CTRL, STATUS and ERRCODE in their places, ERR being ERRCODE ≠ 0, and 0 in
every reserved bit. -/
def Obligations.ControlStatusAndErrcodeReadTheirFields : Prop :=
  ∀ s : State,
    (s.readReg .ctrl).toNat = (if s.ie then 1 else 0) ∧
    (s.readReg .status).toNat =
      (if s.busy then 1 else 0) + (if s.done then 2 else 0) + (if s.errcode = 0 then 0 else 4) + (if s.pv then 8 else 0) ∧
    (s.readReg .errcode).toNat = s.errcode.toNat

/-- 10_state.md R41-R45: a write of an argument register while BUSY = 0 stores all 32 bits in the operand the commands
read, whatever the value, and changes nothing else of the state; the next read returns them (70_reset_and_hazards.md
R388). -/
def Obligations.ArgumentWriteIsReadBack : Prop :=
  (∀ (s : State) (v : Word), s.busy = false →
    s.hostAccess (writeAccess 0x018 v) = { s with argAddr := v } ∧
    s.hostAccess (writeAccess 0x01C v) = { s with argLen := v } ∧
    s.hostAccess (writeAccess 0x020 v) = { s with argType := v } ∧
    s.hostAccess (writeAccess 0x024 v) = { s with argIndex := v } ∧
    s.hostAccess (writeAccess 0x028 v) = { s with argDst := v }) ∧
  (∀ (s : State) (v : Word), ∀ r ∈ [Reg.argAddr, .argLen, .argType, .argIndex, .argDst], s.busy = false →
    (s.hostAccess (writeAccess (regOffset r) v)).readReg r = v ∧
    (∀ q, q ≠ r → (s.hostAccess (writeAccess (regOffset r) v)).readReg q = s.readReg q) ∧
    (s.hostAccess (writeAccess (regOffset r) v)).iobuf = s.iobuf ∧
    (s.hostAccess (writeAccess (regOffset r) v)).seq = s.seq)

/-- 70_reset_and_hazards.md R380: acceptance, and nothing else; the command's operands are those of this moment. -/
def Obligations.AcceptanceOfCommandWord : Prop :=
  ∀ (s : State) (w : Word), s.busy = false →
    s.hostAccess (writeAccess 0x010 w) = { s with lastcmd := w, inflight := some w, busy := true, done := false } ∧
    ∀ i, decode w = .ok i → engineStep (s.hostAccess (writeAccess 0x010 w)) =
      exec i { s with lastcmd := w, inflight := some w, busy := true, done := false }

/-- 70_reset_and_hazards.md R383: while BUSY = 1 a write to CMD, to an argument register or to bytes of IOBUF is lost and
sets PV; so no host access changes the command in flight or anything a command takes as an operand. -/
def Obligations.BusyWriteIsLost : Prop :=
  ∀ s : State, s.busy = true →
    (∀ v : Word, ∀ r ∈ [Reg.cmd, .argAddr, .argLen, .argType, .argIndex, .argDst],
      s.hostAccess (writeAccess (regOffset r) v) = { s with pv := true }) ∧
    (∀ (off : Word) (wd : Width) (v : Word),
      s.hostAccess { space := .buf, offset := off, width := wd, write := true, wdata := v } = { s with pv := true }) ∧
    (∀ (a : Access) (t : State), t = s.hostAccess a →
      t.inflight = s.inflight ∧ t.busy = true ∧ t.lastcmd = s.lastcmd ∧ t.argAddr = s.argAddr ∧ t.argLen = s.argLen ∧
      t.argType = s.argType ∧ t.argIndex = s.argIndex ∧ t.argDst = s.argDst ∧ t.iobuf = s.iobuf ∧ t.seq = s.seq ∧
      t.crcState = s.crcState ∧ t.params = s.params)

/-- 70_reset_and_hazards.md R385: while BUSY = 1 a register reads its value before the command, STATUS shows BUSY = 1
and DONE = 0, CMD the word in flight, and an IOBUF byte, read 8 or 32 bits wide, as any value, a fresh draw each. That
each such read is a fresh draw, with zeros above an 8-bit read's byte, is the model's form of the free value (log 3). -/
def Obligations.BusyReadsShowOldValues : Prop :=
  (∀ (s : State) (w : Word) (r : Reg), r ≠ .status → r ≠ .cmd → (s.accept w).readReg r = s.readReg r) ∧
  (∀ s : State, s.Inv → s.busy = true →
    (s.readReg .status).getLsbD 0 = true ∧ (s.readReg .status).getLsbD 1 = false ∧
    s.inflight = some (s.readReg .cmd)) ∧
  (∀ (s : State) (off v : Word), s.busy = true → off.toNat < s.params.bufBytes →
    s.hostAccess { space := .buf, offset := off, width := .w8, write := false, wdata := v }
      = { s with draws := s.draws + 1, rdata := (Config.freeByte s.draws).setWidth 32 }) ∧
  (∀ (s : State) (off v : Word), s.busy = true → off.toNat % 4 = 0 → off.toNat + 4 ≤ s.params.bufBytes →
    ∃ x : Word,
      s.hostAccess { space := .buf, offset := off, width := .w32, write := false, wdata := v }
        = { s with draws := s.draws + 4, rdata := x } ∧
      ∀ i, i < 4 → x.extractLsb' (8 * i) 8 = Config.freeByte (s.draws + i))

/-- 20_memory.md R86: 8-bit accesses anywhere and 32-bit accesses at multiples of 4, the byte at the lowest offset in
bits 7:0; every other access to the buffer space is a protocol violation. A legal write changes IOBUF alone and a legal
read nothing but the model's own bus data and count of draws (10_state.md R38, R92; log 2, log 8). An unwritten byte
reads as any value (R61), so a read clause is about written bytes. That a violating read returns 0 while BUSY = 1 too is
DEDUCED (log 3), against R385's free byte. -/
def Obligations.BufferAccessesAreLittleEndian : Prop :=
  (∀ (s : State) (off v : Word), s.busy = false → off.toNat % 4 = 0 → off.toNat + 4 ≤ s.params.bufBytes →
    (∃ m, s.hostAccess { space := .buf, offset := off, width := .w32, write := true, wdata := v }
        = { s with iobuf := m } ∧
      (∀ i, i < 4 → Memory.get? m (off.toNat + i) = some (v.extractLsb' (8 * i) 8)) ∧
      (∀ k, k < off.toNat ∨ off.toNat + 4 ≤ k → Memory.get? m k = Memory.get? s.iobuf k)) ∧
    (∃ n x, s.hostAccess { space := .buf, offset := off, width := .w32, write := false, wdata := v }
        = { s with draws := n, rdata := x } ∧
      ∀ i b, i < 4 → Memory.get? s.iobuf (off.toNat + i) = some b → x.extractLsb' (8 * i) 8 = b)) ∧
  (∀ (s : State) (off v : Word), s.busy = false → off.toNat < s.params.bufBytes →
    (∃ m, s.hostAccess { space := .buf, offset := off, width := .w8, write := true, wdata := v }
        = { s with iobuf := m } ∧
      ∀ k, Memory.get? m k = if k = off.toNat then some (v.extractLsb' 0 8) else Memory.get? s.iobuf k) ∧
    (∃ n x, s.hostAccess { space := .buf, offset := off, width := .w8, write := false, wdata := v }
        = { s with draws := n, rdata := x } ∧
      (∀ b, Memory.get? s.iobuf off.toNat = some b → x = b.setWidth 32) ∧ x.extractLsb' 8 24 = 0)) ∧
  (∀ (s : State) (a : Access), a.space = .buf →
    (a.width = .w16 ∨ (a.width = .w32 ∧ a.offset.toNat % 4 ≠ 0) ∨
      (a.width = .w8 ∧ s.params.bufBytes ≤ a.offset.toNat) ∨
      (a.width = .w32 ∧ s.params.bufBytes < a.offset.toNat + 4)) →
    s.hostAccess a = if a.write then { s with pv := true } else { s with pv := true, rdata := 0 })

/-- 20_memory.md R87: a byte written is seen in its lane of the word that holds it, and each byte of a word written
is seen by a byte read. The spec marks this rule as derived, from R86. -/
def Obligations.MixedWidthsSeeTheSameBytes : Prop :=
  ∀ (s : State) (off v : Word), s.busy = false →
    (off.toNat - off.toNat % 4 + 4 ≤ s.params.bufBytes →
      ((s.hostAccess { space := .buf, offset := off, width := .w8, write := true, wdata := v }).hostAccess
        { space := .buf, offset := off - off % 4, width := .w32, write := false, wdata := 0 }).rdata.extractLsb'
          (8 * (off.toNat % 4)) 8 = v.extractLsb' 0 8) ∧
    (off.toNat % 4 = 0 → off.toNat + 4 ≤ s.params.bufBytes → ∀ i : Nat, i < 4 →
      ((s.hostAccess { space := .buf, offset := off, width := .w32, write := true, wdata := v }).hostAccess
        { space := .buf, offset := off + BitVec.ofNat 32 i, width := .w8, write := false, wdata := 0 }).rdata
          = (v.extractLsb' (8 * i) 8).setWidth 32)

/-- 20_memory.md R92: a read access changes no state of the block, but that one which is a protocol violation (R86, R89,
R90) sets PV and returns 0. (The bus data and the count of free values are the model's own fields, log 2 and log 8. That
an offset of 0x1000 or above is a violation is log 7, and that a violation is one while BUSY = 1 too is log 3.) -/
def Obligations.ReadsHaveNoSideEffect : Prop :=
  ∀ (s : State) (a : Access), a.write = false →
    ∃ (p : Bool) (d : Nat) (v : Word), s.hostAccess a = { s with pv := p, draws := d, rdata := v } ∧
      (s.isViolation a → p = true ∧ d = s.draws ∧ v = 0) ∧ (¬ s.isViolation a → p = s.pv)

/-- 60_exceptions.md R340: IRQ is STATUS.DONE and CTRL.IE, read off the two registers, in every state. -/
def Obligations.InterruptLineIsDoneAndEnable : Prop :=
  ∀ s : State, s.irq = ((s.readReg .status).getLsbD 1 && (s.readReg .ctrl).getLsbD 0)

/-- 10_state.md R54 and R55, under the invariant: NCHUNKS, STORE_USED and the CAP registers read their numbers, which
fit in 32 bits. -/
def Obligations.CountAndCapacityRegistersFit : Prop :=
  ∀ s : State, s.Inv →
    (s.readReg .nchunks).toNat = s.seq.length ∧ (s.readReg .storeUsed).toNat = dataBytes s.seq ∧
    (s.readReg .capBuf).toNat = s.params.bufBytes ∧ (s.readReg .capChunks).toNat = s.params.maxChunks ∧
    (s.readReg .capStore).toNat = s.params.storeBytes ∧
    (s.readReg .nchunks).toNat ≤ (s.readReg .capChunks).toNat ∧
    (s.readReg .storeUsed).toNat ≤ (s.readReg .capStore).toNat

/-! ## What every command does and leaves alone -/

/-- 60_exceptions.md R334 and R330, for every command: it answers a next state with BUSY = 0, DONE = 1 and INFLIGHT
empty, and leaves CTRL, PV, the CMD read-back, the argument registers, the parameters and the model's schedule and bus
data alone. -/
def Obligations.CommandCompletionFields : Prop :=
  ∀ (i : Instr) (s : State), ∃ t, exec i s = .next t ∧
    t.busy = false ∧ t.done = true ∧ t.inflight = none ∧ t.ie = s.ie ∧ t.pv = s.pv ∧ t.lastcmd = s.lastcmd ∧
    t.argAddr = s.argAddr ∧ t.argLen = s.argLen ∧ t.argType = s.argType ∧ t.argIndex = s.argIndex ∧
    t.argDst = s.argDst ∧ t.params = s.params ∧ t.schedule = s.schedule ∧ t.rdata = s.rdata

/-- 30_encoding.md R115: a command changes no register but those its row lists, STATUS and ERRCODE. -/
def Obligations.CommandRegisterFrame : Prop :=
  ∀ (i : Instr) (s t : State), exec i s = .next t →
    ∀ r, r ∉ writtenRegs i → r ≠ .status → r ≠ .errcode → t.readReg r = s.readReg r

/-- 30_encoding.md R115: a command that stores computes where it stores, and every IOBUF byte outside that range keeps
its value; a command that stores nothing changes no byte. -/
def Obligations.CommandBufferFrame : Prop :=
  ∀ (i : Instr) (s t : State), exec i s = .next t →
    (storedRange i s = none → ∀ k, Memory.get? t.iobuf k = Memory.get? s.iobuf k) ∧
    (∀ a n, storedRange i s = some (a, n) → ∀ k, (k < a ∨ a + n ≤ k) → Memory.get? t.iobuf k = Memory.get? s.iobuf k)

/-- 30_encoding.md R115, 10_state.md R51, R53 and R57: SEQ is changed by the five editing commands only, CRC_STATE by
the three CRC commands only, TYPE_FLAGS by TYPE_CHECK only. -/
def Obligations.OnlyTheirCommandsWriteSeqAndCrcAndFlags : Prop :=
  ∀ (i : Instr) (s t : State), exec i s = .next t →
    (editsSeq i = false → t.seq = s.seq) ∧ (usesCrcUnit i = false → t.crcState = s.crcState) ∧
    (i ≠ .typeCheck → t.typeFlags = s.typeFlags)

/-- 60_exceptions.md R330: an error completion changes nothing but ERRCODE, BUSY, DONE and INFLIGHT, and the fields the
command's rule names (TYPE_FLAGS for TYPE_CHECK, RES_OFFSET and RES_INDEX for PNG_PARSE); BadCommand (R332) likewise. -/
def Obligations.ErrorsArePrecise : Prop :=
  (∀ (i : Instr) (s t : State), exec i s = .next t → t.errcode ≠ 0 →
    (∃ k ∈ reportedErrors i, t.errcode = k.code) ∧ t.busy = false ∧ t.done = true ∧ t.inflight = none ∧
    t.seq = s.seq ∧ t.crcState = s.crcState ∧ t.iobuf = s.iobuf ∧
    (∀ r, r ∉ writtenOnError i → r ≠ .status → r ≠ .errcode → t.readReg r = s.readReg r) ∧
    t.ie = s.ie ∧ t.pv = s.pv) ∧
  (∀ (s : State) (w : Word), s.inflight = some w → (¬ ∃ i, decode w = .ok i) →
    engineStep s = .next { s with errcode := 8, busy := false, done := true, inflight := none })

/-- 60_exceptions.md R320, R325, R327 and R336: a legal command reports success or a kind of its own row, so never 5, 7,
8 or a code above 10. -/
def Obligations.CommandsReportTheirOwnErrors : Prop :=
  ∀ (i : Instr) (s t : State), exec i s = .next t →
    (t.errcode = 0 ∨ ∃ k ∈ reportedErrors i, t.errcode = k.code) ∧
    t.errcode ≠ 5 ∧ t.errcode ≠ 7 ∧ t.errcode ≠ 8 ∧ t.errcode.toNat ≤ 10

/-- 10_state.md R62: a command outside the CRC32 unit neither reads nor writes CRC_STATE: run from two states that differ
there only, it does the same to the rest and leaves each CRC_STATE as it was. -/
def Obligations.FramerIgnoresCrcState : Prop :=
  ∀ (i : Instr) (s t : State) (c : Word), usesCrcUnit i = false → exec i s = .next t →
    exec i { s with crcState := c } = .next { t with crcState := c } ∧ t.crcState = s.crcState

/-- 43_png.md R262: a command keeps the relative order of the chunks it does not add or remove; PNG_PARSE either
keeps the whole sequence or replaces all of it. The spec marks this rule as derived, from R249-R255. -/
def Obligations.RelativeOrderIsKept : Prop :=
  ∀ (i : Instr) (s t : State), exec i s = .next t →
    (i ≠ .pngParse → s.seq.Sublist t.seq ∨ t.seq.Sublist s.seq) ∧
    (i = .pngParse → t.errcode ≠ 0 → t.seq = s.seq)

/-! ## NOP, CRC32 and TYPE_CHECK -/

/-- 44_control.md R300. -/
def Obligations.NopOnlyCompletes : Prop :=
  decode 0x00000000 = .ok .nop ∧
  ∀ s : State, exec .nop s = .next { s with errcode := 0, busy := false, done := true, inflight := none }

/-- 41_crc32.md R176. -/
def Obligations.CrcInitSetsAllOnes : Prop :=
  decode 0x00000001 = .ok .crcInit ∧
  ∀ s : State, ∃ t, exec .crcInit s = .next t ∧
    t = { s with crcState := 0xFFFFFFFF, errcode := 0, busy := false, done := true, inflight := none } ∧
    t.readReg .crcResult = 0x00000000

/-- 41_crc32.md R177: the state is stepped by the byte; no byte leaves every state unchanged, and 0x00 does not leave the
all-ones state unchanged. -/
def Obligations.CrcByteStepsTheState : Prop :=
  (∀ b : Byte, decode ((0#16 ++ b) ++ 0x02#8) = .ok (.crcByte b)) ∧
  (∀ (b : Byte) (s : State), exec (.crcByte b) s = .next
    { s with crcState := crcStep s.crcState b, errcode := 0, busy := false, done := true, inflight := none }) ∧
  crcStep 0xFFFFFFFF 0x00 = 0x2DFD1072 ∧ (∀ b : Byte, ∃ c : Word, crcStep c b ≠ c)

/-- 41_crc32.md R172: the byte step is eight right shifts of the exclusive or, each with the reflected polynomial
when a 1 is shifted out. The spec marks the constant and the form as general knowledge (log 14). -/
def Obligations.CrcStepIsEightReflectedShifts : Prop :=
  ∀ (c : Word) (b : Byte),
    crcStep c b = (List.range 8).foldl
      (fun x _ => if x.getLsbD 0 then (x >>> 1) ^^^ 0xEDB88320 else x >>> 1) (c ^^^ b.setWidth 32)

/-- 41_crc32.md R174: the table step gives the same state as the byte step, for every state and byte. The spec marks
the equivalence as general knowledge (log 14). -/
def Obligations.TableStepEqualsByteStep : Prop :=
  (∀ (c : Word) (b : Byte), crcTableStep c b = crcStep c b) ∧
  crcTable 0x00 = 0x00000000 ∧ crcTable 0x01 = 0x77073096 ∧ crcTable 0x02 = 0xEE0E612C ∧
  crcTable 0x80 = 0xEDB88320 ∧ crcTable 0xFF = 0x2D02EF8D

/-- 41_crc32.md R178: a range inside the buffer is fed in order; a range that leaves it, on unbounded naturals, is a
RangeError with CRC_STATE unchanged. An unwritten byte reads as a free value, and only the model's own count of these
is left open (log 2). -/
def Obligations.CrcBufFeedsTheRange : Prop :=
  decode 0x00000003 = .ok .crcBuf ∧
  ∀ s : State,
    (s.argAddr.toNat + s.argLen.toNat ≤ s.params.bufBytes → ∃ n, exec .crcBuf s = .next
      { s with
        crcState := (s.memRead s.argAddr.toNat s.argLen.toNat).foldl crcStep s.crcState
        draws := n, errcode := 0, busy := false, done := true, inflight := none }) ∧
    (s.params.bufBytes < s.argAddr.toNat + s.argLen.toNat → exec .crcBuf s = .next
      { s with errcode := 9, busy := false, done := true, inflight := none })

/-- 41_crc32.md R179: after CRC_INIT, however the bytes are split among CRC_BYTE and CRC_BUF and whatever feeds
nothing in between, CRC_RESULT reads the CRC32 of all of them. The spec marks this rule as derived, from R173 and
R176-R178. -/
def Obligations.CrcStreamingLaw : Prop :=
  ∀ (s t u : State) (bs : List Byte), exec .crcInit s = .next t → Feeds bs t u → u.readReg .crcResult = crc32 bs

/-- 40_chunktype.md R150 with 10_state.md R53: TYPE_FLAGS bit by bit from the four bytes of ARG_TYPE, written whether or
not the type is constructible; ERRCODE is 4 exactly when it is not; nothing else changes. -/
def Obligations.TypeCheckWritesFlags : Prop :=
  decode 0x00000010 = .ok .typeCheck ∧
  ∀ s : State, ∃ f : Word,
    (∀ i, f.getLsbD i =
      let b0 := s.argType.extractLsb' 24 8
      let b1 := s.argType.extractLsb' 16 8
      let b2 := s.argType.extractLsb' 8 8
      let b3 := s.argType.extractLsb' 0 8
      let letter (b : Byte) : Bool := decide ((0x41 ≤ b.toNat ∧ b.toNat ≤ 0x5A) ∨ (0x61 ≤ b.toNat ∧ b.toNat ≤ 0x7A))
      let all := letter b0 && letter b1 && letter b2 && letter b3
      if i = 0 then letter b0 else if i = 1 then letter b1 else if i = 2 then letter b2 else if i = 3 then letter b3
      else if i = 4 then all else if i = 8 then !b0.getLsbD 5 else if i = 9 then !b1.getLsbD 5
      else if i = 10 then !b2.getLsbD 5 else if i = 11 then b3.getLsbD 5 else if i = 12 then !b2.getLsbD 5
      else if i = 13 then all && !b2.getLsbD 5 else false) ∧
    exec .typeCheck s = .next
      { s with
        typeFlags := f, errcode := if f.getLsbD 13 then 0 else 4, busy := false, done := true, inflight := none }

/-- 40_chunktype.md R148: the four predicates are bit 5 of their byte, whatever the byte; bit 5 of a letter is its
case; so for a constructible type the four predicates are the case of the four letters. The spec marks this rule as
derived, from R140 and R142-R145. -/
def Obligations.ConstructiblePredicatesAreLetterCase : Prop :=
  (∀ t : ChunkType, t.isCritical = !t.b0.getLsbD 5 ∧ t.isPublic = !t.b1.getLsbD 5 ∧
    t.isReservedBitValid = !t.b2.getLsbD 5 ∧ t.isSafeToCopy = t.b3.getLsbD 5) ∧
  (∀ b : Byte, isLetter b = true → (b.getLsbD 5 = true ↔ 0x61 ≤ b.toNat ∧ b.toNat ≤ 0x7A)) ∧
  ∀ t : ChunkType, t.constructible = true →
    (t.isCritical = true ↔ 0x41 ≤ t.b0.toNat ∧ t.b0.toNat ≤ 0x5A) ∧
    (t.isPublic = true ↔ 0x41 ≤ t.b1.toNat ∧ t.b1.toNat ≤ 0x5A) ∧
    (0x41 ≤ t.b2.toNat ∧ t.b2.toNat ≤ 0x5A) ∧
    (t.isSafeToCopy = true ↔ 0x61 ≤ t.b3.toNat ∧ t.b3.toNat ≤ 0x7A)

/-! ## Chunk framer -/

/-- 42_chunk.md R210: when the source bytes are a serialized well-formed chunk and any further bytes, CHUNK_PARSE reports
its length, type, CRC and extent, and changes nothing else. -/
def Obligations.ChunkParseReportsTheChunk : Prop :=
  ∀ (s : State) (c : Chunk) (r : List Byte), c.WF →
    s.argAddr.toNat + s.argLen.toNat ≤ s.params.bufBytes →
    s.memRead s.argAddr.toNat s.argLen.toNat = serChunk c ++ r →
    ∃ n, exec .chunkParse s = .next
      { s with
        resLen := toReg c.data.length, resType := c.type.toWord, resCrc := c.crc, resOffset := toReg (12 + c.data.length)
        draws := n, errcode := 0, busy := false, done := true, inflight := none }

/-- 42_chunk.md R204-R208 and R210: the error of CHUNK_PARSE on any other source bytes, the first check that fails in the
order range, size, CRC, type; no RES register changes. -/
def Obligations.ChunkParseErrorsInOrder : Prop :=
  ∀ s : State,
    let bytes := s.memRead s.argAddr.toNat s.argLen.toNat
    let l := (be32 (bytes.take 4)).toNat
    let t := ChunkType.ofBytes ((bytes.drop 4).take 4)
    let d := (bytes.drop 8).take l
    let k := be32 ((bytes.drop (8 + l)).take 4)
    let failed (code : BitVec 8) : Prop := ∃ n, exec .chunkParse s =
      .next { s with draws := n, errcode := code, busy := false, done := true, inflight := none }
    (s.params.bufBytes < s.argAddr.toNat + s.argLen.toNat → failed 9) ∧
    (s.argAddr.toNat + s.argLen.toNat ≤ s.params.bufBytes →
      (s.argLen.toNat < 12 ∨ s.argLen.toNat < 12 + l → failed 2) ∧
      (12 + l ≤ s.argLen.toNat → k ≠ crc32 (t.bytes ++ d) → failed 3) ∧
      (12 + l ≤ s.argLen.toNat → k = crc32 (t.bytes ++ d) → t.constructible = false → failed 4))

/-- 42_chunk.md R211: CHUNK_BUILD stores the serialized chunk of ARG_TYPE and the source bytes, as they stood before the
store, at ARG_DST, and no other byte; its errors come in the order source range, destination range, type. -/
def Obligations.ChunkBuildStoresTheChunk : Prop :=
  decode 0x00000021 = .ok .chunkBuild ∧
  ∀ s : State,
    let t := ChunkType.ofWord s.argType
    let d := s.memRead s.argAddr.toNat s.argLen.toNat
    let inRange := s.argAddr.toNat + s.argLen.toNat ≤ s.params.bufBytes ∧
      s.argDst.toNat + 12 + s.argLen.toNat ≤ s.params.bufBytes
    let failed (code : BitVec 8) : Prop := ∃ n, exec .chunkBuild s =
      .next { s with draws := n, errcode := code, busy := false, done := true, inflight := none }
    (inRange → t.constructible = true → ∃ (m : Memory) (n : Nat),
      exec .chunkBuild s = .next
        { s with
          iobuf := m
          resLen := s.argLen, resType := s.argType, resCrc := crc32 (t.bytes ++ d), resOffset := 12 + s.argLen
          draws := n, errcode := 0, busy := false, done := true, inflight := none } ∧
      (∀ k, Memory.get? m k =
        if s.argDst.toNat ≤ k ∧ k < s.argDst.toNat + 12 + s.argLen.toNat then
          (be32Bytes s.argLen ++ be32Bytes s.argType ++ d ++ be32Bytes (crc32 (t.bytes ++ d)))[k - s.argDst.toNat]?
        else Memory.get? s.iobuf k)) ∧
    (¬ inRange → failed 9) ∧ (inRange → t.constructible = false → failed 4)

/-- 42_chunk.md R212: serializing a well-formed record and parsing the bytes, with anything after them, gives the
record back; and what CHUNK_BUILD wrote, CHUNK_PARSE reads back. The spec marks this rule as derived, from R202-R204. -/
def Obligations.ChunkSelfConsistency : Prop :=
  (∀ (c : Chunk) (r : List Byte), c.WF → parseChunk (serChunk c ++ r) = .ok (c, 12 + c.data.length)) ∧
  (∀ s t u : State, s.params.WF → exec .chunkBuild s = .next t → t.errcode = 0 →
    u.iobuf = t.iobuf → u.params = t.params → u.argAddr = s.argDst → u.argLen = 12 + s.argLen →
    ∃ v, exec .chunkParse u = .next v ∧ v.errcode = 0 ∧ v.resLen = s.argLen ∧ v.resType = s.argType ∧
      v.resCrc = crc32 (be32Bytes s.argType ++ s.memRead s.argAddr.toNat s.argLen.toNat) ∧ v.resOffset = 12 + s.argLen)

/-- 42_chunk.md R213: one changed data byte under an unchanged CRC field is InvalidCrc. The spec marks the property
of the CRC it rests on as general knowledge (log 14). -/
def Obligations.CorruptedDataByteIsInvalidCrc : Prop :=
  ∀ (c : Chunk) (i : Nat) (b : Byte) (r : List Byte), c.WF → i < c.data.length → c.data[i]? ≠ some b →
    parseChunk ((serChunk c).set (8 + i) b ++ r) = .error .invalidCrc

/-! ## The chunk sequence -/

/-- 43_png.md R249. -/
def Obligations.PngClearEmptiesSeq : Prop :=
  decode 0x00000030 = .ok .pngClear ∧
  ∀ s : State, ∃ t, exec .pngClear s = .next t ∧
    t = { s with seq := [], errcode := 0, busy := false, done := true, inflight := none } ∧
    t.readReg .nchunks = 0 ∧ t.readReg .storeUsed = 0

/-- 43_png.md R250: when the source bytes are the serialization of well-formed records within the capacities, PNG_PARSE
makes SEQ that list and reports its count and the bytes consumed. -/
def Obligations.PngParseLoadsTheImage : Prop :=
  ∀ (s : State) (q : List Chunk), (∀ c ∈ q, c.WF) → q.length ≤ s.params.maxChunks →
    dataBytes q ≤ s.params.storeBytes → s.argAddr.toNat + s.argLen.toNat ≤ s.params.bufBytes →
    s.memRead s.argAddr.toNat s.argLen.toNat = serPng q →
    ∃ n, exec .pngParse s = .next
      { s with
        seq := q, resIndex := toReg q.length, resOffset := s.argLen
        draws := n, errcode := 0, busy := false, done := true, inflight := none }

/-- 43_png.md R241-R245 and R250: a bad signature, a chunk that does not parse and a chunk past the capacities each end
PNG_PARSE with SEQ kept, the offset of the failing item in RES_OFFSET and the chunks before it in RES_INDEX. -/
def Obligations.PngParseReportsWhereItFailed : Prop :=
  ∀ s : State,
    let bytes := s.memRead s.argAddr.toNat s.argLen.toNat
    let failed (code : BitVec 8) (p i : Nat) : Prop := ∃ n, exec .pngParse s =
      .next { s with
        resOffset := toReg p, resIndex := toReg i, draws := n, errcode := code, busy := false, done := true
        inflight := none }
    (s.params.bufBytes < s.argAddr.toNat + s.argLen.toNat →
      exec .pngParse s = .next { s with errcode := 9, busy := false, done := true, inflight := none }) ∧
    (s.argAddr.toNat + s.argLen.toNat ≤ s.params.bufBytes →
      (bytes.take 8 ≠ pngSignature → failed 1 0 0) ∧
      (∀ (q : List Chunk) (rest : List Byte), (∀ c ∈ q, c.WF) → q.length ≤ s.params.maxChunks →
        dataBytes q ≤ s.params.storeBytes → bytes = serPng q ++ rest → rest ≠ [] →
        (∀ k, parseChunk rest = .error k → failed k.code (8 + serLength q) q.length) ∧
        (∀ c m, parseChunk rest = .ok (c, m) →
          (s.params.maxChunks < q.length + 1 ∨ s.params.storeBytes < dataBytes q + c.data.length) →
          failed 10 (8 + serLength q) q.length)))

/-- 43_png.md R258: a parsed image serializes to exactly the bytes parsed, so parsing that again gives the same list;
and PNG_SERIALIZE after PNG_PARSE writes back the bytes PNG_PARSE read. The spec marks this rule as derived, from
R241, R246 and R212. -/
def Obligations.PngRoundTrip : Prop :=
  (∀ (ps : Params) (bytes : List Byte) (q : List Chunk), parsePng ps bytes = .ok q →
    serPng q = bytes ∧ parsePng ps (serPng q) = .ok q) ∧
  (∀ s t u : State, exec .pngParse s = .next t → t.errcode = 0 → u.seq = t.seq →
    u.argDst.toNat + s.argLen.toNat ≤ u.params.bufBytes →
    ∃ v, exec .pngSerialize u = .next v ∧ v.errcode = 0 ∧ v.resLen = s.argLen ∧
      v.holds u.argDst.toNat (s.memRead s.argAddr.toNat s.argLen.toNat))

/-- 43_png.md R251 and R246: PNG_SERIALIZE stores the signature and every chunk in order at ARG_DST, and no other byte;
an image that does not fit is a RangeError. -/
def Obligations.PngSerializeStoresTheImage : Prop :=
  decode 0x00000032 = .ok .pngSerialize ∧
  ∀ s : State,
    let out := pngSignature ++ s.seq.flatMap serChunk
    out.length = 8 + (s.seq.map fun c => 12 + c.data.length).sum ∧
    (s.argDst.toNat + out.length ≤ s.params.bufBytes → ∃ m : Memory,
      exec .pngSerialize s = .next
        { s with
          iobuf := m, resLen := toReg out.length, resIndex := toReg s.seq.length
          errcode := 0, busy := false, done := true, inflight := none } ∧
      (∀ k, Memory.get? m k =
        if s.argDst.toNat ≤ k ∧ k < s.argDst.toNat + out.length then out[k - s.argDst.toNat]?
        else Memory.get? s.iobuf k)) ∧
    (s.params.bufBytes < s.argDst.toNat + out.length →
      exec .pngSerialize s = .next { s with errcode := 9, busy := false, done := true, inflight := none })

/-- 43_png.md R252: PNG_FIND reports the first record of the type, raw bytes compared, and its offset in the serialized
image; without one it is ChunkNotFound. -/
def Obligations.PngFindReportsTheFirstMatch : Prop :=
  decode 0x00000033 = .ok .pngFind ∧
  ∀ s : State,
    (∀ (pre post : List Chunk) (c : Chunk), s.seq = pre ++ c :: post → c.type.bytes = be32Bytes s.argType →
      (∀ d ∈ pre, d.type.bytes ≠ be32Bytes s.argType) →
      exec .pngFind s = .next
        { s with
          resIndex := toReg pre.length, resLen := toReg c.data.length, resType := s.argType, resCrc := c.crc
          resOffset := toReg (8 + (pre.map fun d => 12 + d.data.length).sum)
          errcode := 0, busy := false, done := true, inflight := none }) ∧
    ((∀ d ∈ s.seq, d.type.bytes ≠ be32Bytes s.argType) →
      exec .pngFind s = .next { s with errcode := 6, busy := false, done := true, inflight := none })

/-- 43_png.md R253: PNG_REMOVE takes the first record of the type out and keeps the others in order; without one it is
ChunkNotFound. -/
def Obligations.PngRemoveTakesTheFirstMatchOut : Prop :=
  decode 0x00000034 = .ok .pngRemove ∧
  ∀ s : State,
    (∀ (pre post : List Chunk) (c : Chunk), s.seq = pre ++ c :: post → c.type.bytes = be32Bytes s.argType →
      (∀ d ∈ pre, d.type.bytes ≠ be32Bytes s.argType) →
      exec .pngRemove s = .next
        { s with
          seq := pre ++ post
          resIndex := toReg pre.length, resLen := toReg c.data.length, resType := s.argType, resCrc := c.crc
          errcode := 0, busy := false, done := true, inflight := none }) ∧
    ((∀ d ∈ s.seq, d.type.bytes ≠ be32Bytes s.argType) →
      exec .pngRemove s = .next { s with errcode := 6, busy := false, done := true, inflight := none })

/-- 43_png.md R259: after PNG_REMOVE of a type that SEQ held exactly once, PNG_FIND of it is ChunkNotFound, there is
one chunk less, and the other chunks keep their order and bytes. The spec marks this rule as derived, from R247, R252
and R253. -/
def Obligations.RemovedTypeIsNotFound : Prop :=
  ∀ s : State, (s.seq.filter fun c => c.type = ChunkType.ofWord s.argType).length = 1 →
    ∃ t, exec .pngRemove s = .next t ∧ t.seq.length + 1 = s.seq.length ∧
      t.seq = s.seq.filter (fun c => c.type ≠ ChunkType.ofWord s.argType) ∧
      ∃ u, exec .pngFind t = .next u ∧ u.errcode = 6 ∧ u.seq = t.seq

/-- 43_png.md R254: PNG_APPEND adds the chunk at the absolute end, with its errors in the order range, type, capacity. -/
def Obligations.PngAppendAddsAtTheEnd : Prop :=
  decode 0x00000035 = .ok .pngAppend ∧
  ∀ s : State,
    let t := ChunkType.ofWord s.argType
    let d := s.memRead s.argAddr.toNat s.argLen.toNat
    let inRange := s.argAddr.toNat + s.argLen.toNat ≤ s.params.bufBytes
    let room := s.seq.length + 1 ≤ s.params.maxChunks ∧ dataBytes s.seq + s.argLen.toNat ≤ s.params.storeBytes
    let failed (code : BitVec 8) : Prop := ∃ n, exec .pngAppend s =
      .next { s with draws := n, errcode := code, busy := false, done := true, inflight := none }
    (inRange → t.constructible = true → room → ∃ n, exec .pngAppend s = .next
      { s with
        seq := s.seq ++ [{ type := t, data := d, crc := crc32 (t.bytes ++ d) }]
        resIndex := toReg s.seq.length, resLen := s.argLen, resType := s.argType, resCrc := crc32 (t.bytes ++ d)
        draws := n, errcode := 0, busy := false, done := true, inflight := none }) ∧
    (¬ inRange → failed 9) ∧ (inRange → t.constructible = false → failed 4) ∧
    (inRange → t.constructible = true → ¬ room → failed 10)

/-- 43_png.md R255 with R248: PNG_INSERT adds the chunk immediately before the last chunk when that is an IEND, and at
the end otherwise, with its errors in the order range, type, capacity. -/
def Obligations.PngInsertAddsBeforeFinalIend : Prop :=
  decode 0x00000036 = .ok .pngInsert ∧
  ∀ s : State,
    let t := ChunkType.ofWord s.argType
    let d := s.memRead s.argAddr.toNat s.argLen.toNat
    let c : Chunk := { type := t, data := d, crc := crc32 (t.bytes ++ d) }
    let inRange := s.argAddr.toNat + s.argLen.toNat ≤ s.params.bufBytes
    let room := s.seq.length + 1 ≤ s.params.maxChunks ∧ dataBytes s.seq + s.argLen.toNat ≤ s.params.storeBytes
    let inserted (q : List Chunk) (i : Nat) : Prop := ∃ n, exec .pngInsert s =
      .next { s with
        seq := q, resIndex := toReg i, resLen := s.argLen, resType := s.argType, resCrc := c.crc
        draws := n, errcode := 0, busy := false, done := true, inflight := none }
    let failed (code : BitVec 8) : Prop := ∃ n, exec .pngInsert s =
      .next { s with draws := n, errcode := code, busy := false, done := true, inflight := none }
    (inRange → t.constructible = true → room →
      (∀ (pre : List Chunk) (e : Chunk), s.seq = pre ++ [e] → e.type.bytes = [0x49, 0x45, 0x4E, 0x44] →
        inserted (pre ++ [c, e]) pre.length) ∧
      ((∀ (pre : List Chunk) (e : Chunk), s.seq = pre ++ [e] → e.type.bytes ≠ [0x49, 0x45, 0x4E, 0x44]) →
        inserted (s.seq ++ [c]) s.seq.length)) ∧
    (¬ inRange → failed 9) ∧ (inRange → t.constructible = false → failed 4) ∧
    (inRange → t.constructible = true → ¬ room → failed 10)

/-- 43_png.md R256: CHUNK_INFO reports the record at ARG_INDEX and its offset in the serialized image; an index not below
NCHUNKS is a RangeError. -/
def Obligations.ChunkInfoReportsTheRecord : Prop :=
  decode 0x00000037 = .ok .chunkInfo ∧
  ∀ s : State,
    (∀ (pre post : List Chunk) (c : Chunk), s.seq = pre ++ c :: post → s.argIndex.toNat = pre.length →
      exec .chunkInfo s = .next
        { s with
          resLen := toReg c.data.length, resType := c.type.toWord, resCrc := c.crc
          resOffset := toReg (8 + (pre.map fun d => 12 + d.data.length).sum)
          errcode := 0, busy := false, done := true, inflight := none }) ∧
    (s.seq.length ≤ s.argIndex.toNat →
      exec .chunkInfo s = .next { s with errcode := 9, busy := false, done := true, inflight := none })

/-- 43_png.md R257: CHUNK_DATA stores the data of the record at ARG_INDEX at ARG_DST, and no other byte; a bad index, then
a destination that does not fit, is a RangeError. -/
def Obligations.ChunkDataStoresTheData : Prop :=
  decode 0x00000038 = .ok .chunkData ∧
  ∀ s : State,
    (∀ c, s.seq[s.argIndex.toNat]? = some c → s.argDst.toNat + c.data.length ≤ s.params.bufBytes → ∃ m : Memory,
      exec .chunkData s = .next
        { s with
          iobuf := m, resLen := toReg c.data.length, errcode := 0, busy := false, done := true, inflight := none } ∧
      (∀ k, Memory.get? m k =
        if s.argDst.toNat ≤ k ∧ k < s.argDst.toNat + c.data.length then c.data[k - s.argDst.toNat]?
        else Memory.get? s.iobuf k)) ∧
    (s.seq.length ≤ s.argIndex.toNat →
      exec .chunkData s = .next { s with errcode := 9, busy := false, done := true, inflight := none }) ∧
    (∀ c, s.seq[s.argIndex.toNat]? = some c → s.params.bufBytes < s.argDst.toNat + c.data.length →
      exec .chunkData s = .next { s with errcode := 9, busy := false, done := true, inflight := none })
end

