-- ==== Sys2Proof/Laws/Crc.lean ====
section
/-! SUPPORT. The laws of the CRC function that a whole-sequence proof needs (41_crc32.md R173, R179). -/

namespace Sys2Proof.Machine

@[simp] theorem crcFeed_nil (c : Word) : crcFeed c [] = c := rfl

@[simp] theorem crcFeed_cons (c : Word) (b : Byte) (s : List Byte) : crcFeed c (b :: s) = crcFeed (crcStep c b) s := rfl

/-- Feeding two sequences one after the other is feeding their concatenation. -/
theorem crcFeed_append (c : Word) (s t : List Byte) : crcFeed c (s ++ t) = crcFeed (crcFeed c s) t :=
  List.foldl_append

/-- A shift distributes over exclusive or: the generator is linear. -/
theorem crcShift_xor (x y : Word) : crcShift (x ^^^ y) = crcShift x ^^^ crcShift y := by
  have cancel (a b : Word) : a ^^^ b = (a ^^^ 0xEDB88320) ^^^ (b ^^^ 0xEDB88320) := by
    calc a ^^^ b = a ^^^ b ^^^ (0xEDB88320 ^^^ 0xEDB88320) := by simp
      _ = _ := by ac_rfl
  simp only [crcShift, BitVec.getLsbD_xor, BitVec.ushiftRight_xor_distrib]
  cases x.getLsbD 0 <;> cases y.getLsbD 0
  · rfl
  · exact BitVec.xor_assoc _ _ _
  · show x >>> 1 ^^^ y >>> 1 ^^^ 0xEDB88320 = (x >>> 1 ^^^ 0xEDB88320) ^^^ y >>> 1
    ac_rfl
  · exact cancel _ _

end Sys2Proof.Machine
end

