-- ==== Sys2Proof/Laws/Decode.lean ====
section
/-! SUPPORT. The fields of an encoded command (30_encoding.md R110, R116). -/

namespace Sys2Proof

/-- The three fields of a word put together from fields. -/
theorem commandFields_append (o b : BitVec 8) (r : BitVec 16) :
    commandFields ((r ++ b) ++ o) = { opcode := o, imm8 := b, rsvd := r } := by
  have h0 : BitVec.extractLsb' 0 8 ((r ++ b) ++ o : Word) = o := by
    apply BitVec.eq_of_getLsbD_eq
    intro i hi
    simp only [BitVec.getLsbD_extractLsb', BitVec.getLsbD_append, hi, Nat.zero_add, decide_true, Bool.true_and, if_true]
  have h1 : BitVec.extractLsb' 8 8 ((r ++ b) ++ o : Word) = b := by
    apply BitVec.eq_of_getLsbD_eq
    intro i hi
    simp only [BitVec.getLsbD_extractLsb', BitVec.getLsbD_append, hi, decide_true, Bool.true_and,
      show ¬ 8 + i < 8 by omega, show 8 + i - 8 = i by omega, if_true, if_false]
  have h2 : BitVec.extractLsb' 16 16 ((r ++ b) ++ o : Word) = r := by
    apply BitVec.eq_of_getLsbD_eq
    intro i hi
    simp only [BitVec.getLsbD_extractLsb', BitVec.getLsbD_append, hi, decide_true, Bool.true_and,
      show ¬ 16 + i < 8 by omega, show ¬ 16 + i - 8 < 8 by omega, show 16 + i - 8 - 8 = i by omega, if_false]
  simp only [commandFields, h0, h1, h2]

/-- The fields of a command's word are its own opcode and immediate, with RSVD = 0 (R116). -/
@[simp] theorem commandFields_encode (i : Instr) :
    commandFields (encode i) = { opcode := opcodeOf i, imm8 := imm8Of i, rsvd := 0 } :=
  commandFields_append (opcodeOf i) (imm8Of i) 0

end Sys2Proof
end

