-- ==== Sys2Proof/Laws/Words.lean ====
section
/-! SUPPORT. The byte orders and packings: `BE32`, `be32` and `TB` undo one another (00_scope.md R15, R16). -/

namespace Sys2Proof.Machine

@[simp] theorem length_be32Bytes (x : Word) : (be32Bytes x).length = 4 := rfl

@[simp] theorem ChunkType.length_bytes (t : ChunkType) : t.bytes.length = 4 := rfl

/-- The bits of a word put together from bytes. -/
theorem getLsbD_wordOf (b0 b1 b2 b3 : Byte) (i : Nat) :
    (wordOf b0 b1 b2 b3).getLsbD i =
      if i < 8 then b3.getLsbD i else if i < 16 then b2.getLsbD (i - 8)
      else if i < 24 then b1.getLsbD (i - 16) else b0.getLsbD (i - 24) := by
  simp only [wordOf, BitVec.getLsbD_append]
  by_cases h1 : i < 8
  · simp [h1, show i < 16 by omega]
  · by_cases h2 : i < 16
    · simp [h1, h2]
    · by_cases h3 : i < 24
      · simp [h1, h2, h3, show i - (8 + 8) < 8 by omega]
      · simp [h1, h2, h3, show ¬ i - (8 + 8) < 8 by omega, show i - 16 - 8 = i - 24 by omega]

/-- A word is its four bytes. -/
theorem wordOf_extract (x : Word) :
    wordOf (x.extractLsb' 24 8) (x.extractLsb' 16 8) (x.extractLsb' 8 8) (x.extractLsb' 0 8) = x := by
  apply BitVec.eq_of_getLsbD_eq
  intro i hi
  rw [getLsbD_wordOf]
  simp only [BitVec.getLsbD_extractLsb']
  split
  · simp [*]
  · split
    · simp [show i - 8 < 8 by omega, show 8 + (i - 8) = i by omega]
    · split
      · simp [show i - 16 < 8 by omega, show 16 + (i - 16) = i by omega]
      · simp [show i - 24 < 8 by omega, show 24 + (i - 24) = i by omega]

theorem extract_wordOf (b0 b1 b2 b3 : Byte) :
    (wordOf b0 b1 b2 b3).extractLsb' 24 8 = b0 ∧ (wordOf b0 b1 b2 b3).extractLsb' 16 8 = b1 ∧
    (wordOf b0 b1 b2 b3).extractLsb' 8 8 = b2 ∧ (wordOf b0 b1 b2 b3).extractLsb' 0 8 = b3 := by
  refine ⟨?_, ?_, ?_, ?_⟩ <;>
  · apply BitVec.eq_of_getLsbD_eq
    intro i hi
    simp only [BitVec.getLsbD_extractLsb', getLsbD_wordOf, hi, decide_true, Bool.true_and]
    first
      | rw [if_neg (by omega), if_neg (by omega), if_neg (by omega)]; congr 1; omega
      | rw [if_neg (by omega), if_neg (by omega), if_pos (by omega)]; congr 1; omega
      | rw [if_neg (by omega), if_pos (by omega)]; congr 1; omega
      | rw [if_pos (by omega)]; congr 1; omega

/-- `be32(BE32(x)) = x`. -/
@[simp] theorem be32_be32Bytes (x : Word) : be32 (be32Bytes x) = x := wordOf_extract x

@[simp] theorem be32Bytes_wordOf (b0 b1 b2 b3 : Byte) : be32Bytes (wordOf b0 b1 b2 b3) = [b0, b1, b2, b3] := by
  obtain ⟨h0, h1, h2, h3⟩ := extract_wordOf b0 b1 b2 b3
  simp [be32Bytes, h0, h1, h2, h3]

/-- `TB` of a type's register form is the type (10_state.md R43). -/
@[simp] theorem ChunkType.ofWord_toWord (t : ChunkType) : ChunkType.ofWord t.toWord = t := by
  obtain ⟨h0, h1, h2, h3⟩ := extract_wordOf t.b0 t.b1 t.b2 t.b3
  simp [ChunkType.ofWord, ChunkType.toWord, h0, h1, h2, h3]

@[simp] theorem ChunkType.toWord_ofWord (w : Word) : (ChunkType.ofWord w).toWord = w := wordOf_extract w

/-- `TB(w)` is the bytes of `BE32(w)` (R16). -/
theorem ChunkType.bytes_ofWord (w : Word) : (ChunkType.ofWord w).bytes = be32Bytes w := rfl

@[simp] theorem ChunkType.ofBytes_bytes (t : ChunkType) : ChunkType.ofBytes t.bytes = t := rfl

theorem ChunkType.bytes_injective (t u : ChunkType) (h : t.bytes = u.bytes) : t = u := by
  cases t; cases u; simp_all [ChunkType.bytes]

/-- `be32` of four bytes as a number (R15). -/
theorem be32_toNat (b0 b1 b2 b3 : Byte) :
    (be32 [b0, b1, b2, b3]).toNat = b0.toNat * 2 ^ 24 + b1.toNat * 2 ^ 16 + b2.toNat * 2 ^ 8 + b3.toNat := by
  have h0 := b0.isLt
  have h1 := b1.isLt
  have h2 := b2.isLt
  have h3 := b3.isLt
  simp only [be32, wordOf, List.getD_cons_zero, List.getD_cons_succ, BitVec.toNat_append]
  rw [← Nat.shiftLeft_add_eq_or_of_lt (i := 8 + 8) (b := b2.toNat <<< 8 ||| b3.toNat),
    ← Nat.shiftLeft_add_eq_or_of_lt (i := 8) h1, ← Nat.shiftLeft_add_eq_or_of_lt (i := 8) h3]
  · simp only [Nat.shiftLeft_eq]; omega
  · rw [← Nat.shiftLeft_add_eq_or_of_lt (i := 8) h3, Nat.shiftLeft_eq]; omega

@[simp] theorem toReg_toNat (w : Word) : toReg w.toNat = w := by simp [toReg]

theorem toNat_toReg (n : Nat) (h : n < 2 ^ 32) : (toReg n).toNat = n := by
  rw [toReg, BitVec.toNat_ofNat, Nat.mod_eq_of_lt h]

@[simp] theorem length_slice (s : List Byte) (i j : Nat) : (slice s i j).length = min (j - i) (s.length - i) := by
  simp [slice]

end Sys2Proof.Machine
end

