-- ==== Sys2Proof/Laws/Framer.lean ====
section
/-! SUPPORT. What constructing, serializing and parsing one chunk answer (42_chunk.md R200-R209), each said once. -/

namespace Sys2Proof.Machine

theorem length_serChunk (c : Chunk) : (serChunk c).length = 12 + c.data.length := by
  simp [serChunk]; omega

/-- Construction answers a record exactly for a constructible type (R203). -/
theorem mkChunk_eq_ok_iff (t : ChunkType) (d : List Byte) (c : Chunk) :
    mkChunk t d = .ok c ↔ t.constructible = true ∧ c = { type := t, data := d, crc := chunkCrc t d } := by
  unfold mkChunk
  cases t.constructible with
  | true => exact ⟨fun h => by cases h; exact ⟨rfl, rfl⟩, fun h => by rw [h.2]; rfl⟩
  | false => exact ⟨fun h => by (cases h), fun h => by cases h.1⟩

theorem mkChunk_eq_error_iff (t : ChunkType) (d : List Byte) (k : ErrorKind) :
    mkChunk t d = .error k ↔ t.constructible = false ∧ k = .invalidTypeByte := by
  unfold mkChunk
  cases t.constructible with
  | true => exact ⟨fun h => by (cases h), fun h => by cases h.1⟩
  | false => exact ⟨fun h => by cases h; exact ⟨rfl, rfl⟩, fun h => by rw [h.2]; rfl⟩

/-- Everything a successful parse says (R204): the sizes fit, the CRC field is the CRC of the type and the data, the
type is constructible, and the record and the count are read off the bytes. -/
theorem parseChunk_eq_ok_iff (s : List Byte) (c : Chunk) (m : Nat) :
    parseChunk s = .ok (c, m) ↔
      m = 12 + (be32 (slice s 0 4)).toNat ∧ m ≤ s.length ∧
      c.type = ChunkType.ofBytes (slice s 4 8) ∧ c.data = slice s 8 (m - 4) ∧ c.crc = be32 (slice s (m - 4) m) ∧
      c.crc = chunkCrc c.type c.data ∧ c.type.constructible = true := by
  simp only [parseChunk]
  constructor
  · intro h
    split at h
    · cases h
    · split at h
      · cases h
      · split at h
        · cases h
        · split at h
          · cases h
            rename_i h1 h2 h3 h4
            have e : 12 + (be32 (slice s 0 4)).toNat - 4 = 8 + (be32 (slice s 0 4)).toNat := by omega
            exact ⟨rfl, by omega, rfl, by rw [e], by rw [e], by simpa using h3, h4⟩
          · cases h
  · rintro ⟨rfl, hm, ht, hd, hk, hc, hcon⟩
    have e : 12 + (be32 (slice s 0 4)).toNat - 4 = 8 + (be32 (slice s 0 4)).toNat := by omega
    rw [e] at hd hk
    rw [if_neg (by omega), if_neg (by omega), ← ht, ← hd, ← hk, if_neg (by simpa using hc), if_pos hcon]

/-- A parsed record satisfies 10_state.md R57's first two clauses, and its data lie inside the bytes parsed. -/
theorem parseChunk_ok (s : List Byte) (c : Chunk) (m : Nat) (h : parseChunk s = .ok (c, m)) :
    c.crc = chunkCrc c.type c.data ∧ c.type.constructible = true ∧ m = 12 + c.data.length ∧ m ≤ s.length := by
  obtain ⟨rfl, hm, -, hd, -, hc, hcon⟩ := (parseChunk_eq_ok_iff s c m).mp h
  refine ⟨hc, hcon, ?_, hm⟩
  rw [hd, length_slice]
  omega

/-- The error kinds a parse can answer (R204). -/
theorem parseChunk_error_kind (s : List Byte) (k : ErrorKind) (h : parseChunk s = .error k) :
    k = .bufferTooShort ∨ k = .invalidCrc ∨ k = .invalidTypeByte := by
  simp only [parseChunk] at h
  split at h
  · cases h; simp
  · split at h
    · cases h; simp
    · split at h
      · cases h; simp
      · split at h <;> cases h
        simp

end Sys2Proof.Machine
end

