-- ==== Sys2Proof/Laws/State.lean ====
section
/-! SUPPORT. One lemma per field per named update of the state, so that no proof unfolds a record update. -/

namespace Sys2Proof.Machine

/-! ## `State.complete`, 60_exceptions.md R330, R334 -/

@[simp] theorem State.complete_ie (s : State) (code : BitVec 8) : (s.complete code).ie = s.ie := rfl
@[simp] theorem State.complete_busy (s : State) (code : BitVec 8) : (s.complete code).busy = false := rfl
@[simp] theorem State.complete_done (s : State) (code : BitVec 8) : (s.complete code).done = true := rfl
@[simp] theorem State.complete_pv (s : State) (code : BitVec 8) : (s.complete code).pv = s.pv := rfl
@[simp] theorem State.complete_lastcmd (s : State) (code : BitVec 8) : (s.complete code).lastcmd = s.lastcmd := rfl
@[simp] theorem State.complete_inflight (s : State) (code : BitVec 8) : (s.complete code).inflight = none := rfl
@[simp] theorem State.complete_errcode (s : State) (code : BitVec 8) : (s.complete code).errcode = code := rfl
@[simp] theorem State.complete_argAddr (s : State) (code : BitVec 8) : (s.complete code).argAddr = s.argAddr := rfl
@[simp] theorem State.complete_argLen (s : State) (code : BitVec 8) : (s.complete code).argLen = s.argLen := rfl
@[simp] theorem State.complete_argType (s : State) (code : BitVec 8) : (s.complete code).argType = s.argType := rfl
@[simp] theorem State.complete_argIndex (s : State) (code : BitVec 8) : (s.complete code).argIndex = s.argIndex := rfl
@[simp] theorem State.complete_argDst (s : State) (code : BitVec 8) : (s.complete code).argDst = s.argDst := rfl
@[simp] theorem State.complete_resLen (s : State) (code : BitVec 8) : (s.complete code).resLen = s.resLen := rfl
@[simp] theorem State.complete_resType (s : State) (code : BitVec 8) : (s.complete code).resType = s.resType := rfl
@[simp] theorem State.complete_resCrc (s : State) (code : BitVec 8) : (s.complete code).resCrc = s.resCrc := rfl
@[simp] theorem State.complete_resIndex (s : State) (code : BitVec 8) : (s.complete code).resIndex = s.resIndex := rfl
@[simp] theorem State.complete_resOffset (s : State) (code : BitVec 8) : (s.complete code).resOffset = s.resOffset := rfl
@[simp] theorem State.complete_crcState (s : State) (code : BitVec 8) : (s.complete code).crcState = s.crcState := rfl
@[simp] theorem State.complete_typeFlags (s : State) (code : BitVec 8) : (s.complete code).typeFlags = s.typeFlags := rfl
@[simp] theorem State.complete_seq (s : State) (code : BitVec 8) : (s.complete code).seq = s.seq := rfl
@[simp] theorem State.complete_iobuf (s : State) (code : BitVec 8) : (s.complete code).iobuf = s.iobuf := rfl
@[simp] theorem State.complete_params (s : State) (code : BitVec 8) : (s.complete code).params = s.params := rfl
@[simp] theorem State.complete_draws (s : State) (code : BitVec 8) : (s.complete code).draws = s.draws := rfl
@[simp] theorem State.complete_schedule (s : State) (code : BitVec 8) : (s.complete code).schedule = s.schedule := rfl
@[simp] theorem State.complete_rdata (s : State) (code : BitVec 8) : (s.complete code).rdata = s.rdata := rfl

/-! ## `State.drawn` -/

@[simp] theorem State.drawn_ie (s : State) (n : Nat) : (s.drawn n).ie = s.ie := rfl
@[simp] theorem State.drawn_busy (s : State) (n : Nat) : (s.drawn n).busy = s.busy := rfl
@[simp] theorem State.drawn_done (s : State) (n : Nat) : (s.drawn n).done = s.done := rfl
@[simp] theorem State.drawn_pv (s : State) (n : Nat) : (s.drawn n).pv = s.pv := rfl
@[simp] theorem State.drawn_lastcmd (s : State) (n : Nat) : (s.drawn n).lastcmd = s.lastcmd := rfl
@[simp] theorem State.drawn_inflight (s : State) (n : Nat) : (s.drawn n).inflight = s.inflight := rfl
@[simp] theorem State.drawn_errcode (s : State) (n : Nat) : (s.drawn n).errcode = s.errcode := rfl
@[simp] theorem State.drawn_argAddr (s : State) (n : Nat) : (s.drawn n).argAddr = s.argAddr := rfl
@[simp] theorem State.drawn_argLen (s : State) (n : Nat) : (s.drawn n).argLen = s.argLen := rfl
@[simp] theorem State.drawn_argType (s : State) (n : Nat) : (s.drawn n).argType = s.argType := rfl
@[simp] theorem State.drawn_argIndex (s : State) (n : Nat) : (s.drawn n).argIndex = s.argIndex := rfl
@[simp] theorem State.drawn_argDst (s : State) (n : Nat) : (s.drawn n).argDst = s.argDst := rfl
@[simp] theorem State.drawn_resLen (s : State) (n : Nat) : (s.drawn n).resLen = s.resLen := rfl
@[simp] theorem State.drawn_resType (s : State) (n : Nat) : (s.drawn n).resType = s.resType := rfl
@[simp] theorem State.drawn_resCrc (s : State) (n : Nat) : (s.drawn n).resCrc = s.resCrc := rfl
@[simp] theorem State.drawn_resIndex (s : State) (n : Nat) : (s.drawn n).resIndex = s.resIndex := rfl
@[simp] theorem State.drawn_resOffset (s : State) (n : Nat) : (s.drawn n).resOffset = s.resOffset := rfl
@[simp] theorem State.drawn_crcState (s : State) (n : Nat) : (s.drawn n).crcState = s.crcState := rfl
@[simp] theorem State.drawn_typeFlags (s : State) (n : Nat) : (s.drawn n).typeFlags = s.typeFlags := rfl
@[simp] theorem State.drawn_seq (s : State) (n : Nat) : (s.drawn n).seq = s.seq := rfl
@[simp] theorem State.drawn_iobuf (s : State) (n : Nat) : (s.drawn n).iobuf = s.iobuf := rfl
@[simp] theorem State.drawn_params (s : State) (n : Nat) : (s.drawn n).params = s.params := rfl
@[simp] theorem State.drawn_draws (s : State) (n : Nat) : (s.drawn n).draws = s.draws + n := rfl
@[simp] theorem State.drawn_schedule (s : State) (n : Nat) : (s.drawn n).schedule = s.schedule := rfl
@[simp] theorem State.drawn_rdata (s : State) (n : Nat) : (s.drawn n).rdata = s.rdata := rfl

/-! ## `State.memWrite`, 00_scope.md R17 -/

@[simp] theorem State.memWrite_ie (s : State) (a : Nat) (bs : List Byte) : (s.memWrite a bs).ie = s.ie := rfl
@[simp] theorem State.memWrite_busy (s : State) (a : Nat) (bs : List Byte) : (s.memWrite a bs).busy = s.busy := rfl
@[simp] theorem State.memWrite_done (s : State) (a : Nat) (bs : List Byte) : (s.memWrite a bs).done = s.done := rfl
@[simp] theorem State.memWrite_pv (s : State) (a : Nat) (bs : List Byte) : (s.memWrite a bs).pv = s.pv := rfl
@[simp] theorem State.memWrite_lastcmd (s : State) (a : Nat) (bs : List Byte) : (s.memWrite a bs).lastcmd = s.lastcmd := rfl
@[simp] theorem State.memWrite_inflight (s : State) (a : Nat) (bs : List Byte) : (s.memWrite a bs).inflight = s.inflight := rfl
@[simp] theorem State.memWrite_errcode (s : State) (a : Nat) (bs : List Byte) : (s.memWrite a bs).errcode = s.errcode := rfl
@[simp] theorem State.memWrite_argAddr (s : State) (a : Nat) (bs : List Byte) : (s.memWrite a bs).argAddr = s.argAddr := rfl
@[simp] theorem State.memWrite_argLen (s : State) (a : Nat) (bs : List Byte) : (s.memWrite a bs).argLen = s.argLen := rfl
@[simp] theorem State.memWrite_argType (s : State) (a : Nat) (bs : List Byte) : (s.memWrite a bs).argType = s.argType := rfl
@[simp] theorem State.memWrite_argIndex (s : State) (a : Nat) (bs : List Byte) : (s.memWrite a bs).argIndex = s.argIndex := rfl
@[simp] theorem State.memWrite_argDst (s : State) (a : Nat) (bs : List Byte) : (s.memWrite a bs).argDst = s.argDst := rfl
@[simp] theorem State.memWrite_resLen (s : State) (a : Nat) (bs : List Byte) : (s.memWrite a bs).resLen = s.resLen := rfl
@[simp] theorem State.memWrite_resType (s : State) (a : Nat) (bs : List Byte) : (s.memWrite a bs).resType = s.resType := rfl
@[simp] theorem State.memWrite_resCrc (s : State) (a : Nat) (bs : List Byte) : (s.memWrite a bs).resCrc = s.resCrc := rfl
@[simp] theorem State.memWrite_resIndex (s : State) (a : Nat) (bs : List Byte) : (s.memWrite a bs).resIndex = s.resIndex := rfl
@[simp] theorem State.memWrite_resOffset (s : State) (a : Nat) (bs : List Byte) : (s.memWrite a bs).resOffset = s.resOffset := rfl
@[simp] theorem State.memWrite_crcState (s : State) (a : Nat) (bs : List Byte) : (s.memWrite a bs).crcState = s.crcState := rfl
@[simp] theorem State.memWrite_typeFlags (s : State) (a : Nat) (bs : List Byte) : (s.memWrite a bs).typeFlags = s.typeFlags := rfl
@[simp] theorem State.memWrite_seq (s : State) (a : Nat) (bs : List Byte) : (s.memWrite a bs).seq = s.seq := rfl
@[simp] theorem State.memWrite_iobuf (s : State) (a : Nat) (bs : List Byte) : (s.memWrite a bs).iobuf = Memory.setBytes s.iobuf a bs := rfl
@[simp] theorem State.memWrite_params (s : State) (a : Nat) (bs : List Byte) : (s.memWrite a bs).params = s.params := rfl
@[simp] theorem State.memWrite_draws (s : State) (a : Nat) (bs : List Byte) : (s.memWrite a bs).draws = s.draws := rfl
@[simp] theorem State.memWrite_schedule (s : State) (a : Nat) (bs : List Byte) : (s.memWrite a bs).schedule = s.schedule := rfl
@[simp] theorem State.memWrite_rdata (s : State) (a : Nat) (bs : List Byte) : (s.memWrite a bs).rdata = s.rdata := rfl

/-! ## `State.accept`, 70_reset_and_hazards.md R380 -/

@[simp] theorem State.accept_ie (s : State) (w : Word) : (s.accept w).ie = s.ie := rfl
@[simp] theorem State.accept_busy (s : State) (w : Word) : (s.accept w).busy = true := rfl
@[simp] theorem State.accept_done (s : State) (w : Word) : (s.accept w).done = false := rfl
@[simp] theorem State.accept_pv (s : State) (w : Word) : (s.accept w).pv = s.pv := rfl
@[simp] theorem State.accept_lastcmd (s : State) (w : Word) : (s.accept w).lastcmd = w := rfl
@[simp] theorem State.accept_inflight (s : State) (w : Word) : (s.accept w).inflight = some w := rfl
@[simp] theorem State.accept_errcode (s : State) (w : Word) : (s.accept w).errcode = s.errcode := rfl
@[simp] theorem State.accept_argAddr (s : State) (w : Word) : (s.accept w).argAddr = s.argAddr := rfl
@[simp] theorem State.accept_argLen (s : State) (w : Word) : (s.accept w).argLen = s.argLen := rfl
@[simp] theorem State.accept_argType (s : State) (w : Word) : (s.accept w).argType = s.argType := rfl
@[simp] theorem State.accept_argIndex (s : State) (w : Word) : (s.accept w).argIndex = s.argIndex := rfl
@[simp] theorem State.accept_argDst (s : State) (w : Word) : (s.accept w).argDst = s.argDst := rfl
@[simp] theorem State.accept_resLen (s : State) (w : Word) : (s.accept w).resLen = s.resLen := rfl
@[simp] theorem State.accept_resType (s : State) (w : Word) : (s.accept w).resType = s.resType := rfl
@[simp] theorem State.accept_resCrc (s : State) (w : Word) : (s.accept w).resCrc = s.resCrc := rfl
@[simp] theorem State.accept_resIndex (s : State) (w : Word) : (s.accept w).resIndex = s.resIndex := rfl
@[simp] theorem State.accept_resOffset (s : State) (w : Word) : (s.accept w).resOffset = s.resOffset := rfl
@[simp] theorem State.accept_crcState (s : State) (w : Word) : (s.accept w).crcState = s.crcState := rfl
@[simp] theorem State.accept_typeFlags (s : State) (w : Word) : (s.accept w).typeFlags = s.typeFlags := rfl
@[simp] theorem State.accept_seq (s : State) (w : Word) : (s.accept w).seq = s.seq := rfl
@[simp] theorem State.accept_iobuf (s : State) (w : Word) : (s.accept w).iobuf = s.iobuf := rfl
@[simp] theorem State.accept_params (s : State) (w : Word) : (s.accept w).params = s.params := rfl
@[simp] theorem State.accept_draws (s : State) (w : Word) : (s.accept w).draws = s.draws := rfl
@[simp] theorem State.accept_schedule (s : State) (w : Word) : (s.accept w).schedule = s.schedule := rfl
@[simp] theorem State.accept_rdata (s : State) (w : Word) : (s.accept w).rdata = s.rdata := rfl

/-! ## `State.withSchedule` -/

@[simp] theorem State.withSchedule_ie (s : State) (es : List Event) : (s.withSchedule es).ie = s.ie := rfl
@[simp] theorem State.withSchedule_busy (s : State) (es : List Event) : (s.withSchedule es).busy = s.busy := rfl
@[simp] theorem State.withSchedule_done (s : State) (es : List Event) : (s.withSchedule es).done = s.done := rfl
@[simp] theorem State.withSchedule_pv (s : State) (es : List Event) : (s.withSchedule es).pv = s.pv := rfl
@[simp] theorem State.withSchedule_lastcmd (s : State) (es : List Event) : (s.withSchedule es).lastcmd = s.lastcmd := rfl
@[simp] theorem State.withSchedule_inflight (s : State) (es : List Event) : (s.withSchedule es).inflight = s.inflight := rfl
@[simp] theorem State.withSchedule_errcode (s : State) (es : List Event) : (s.withSchedule es).errcode = s.errcode := rfl
@[simp] theorem State.withSchedule_argAddr (s : State) (es : List Event) : (s.withSchedule es).argAddr = s.argAddr := rfl
@[simp] theorem State.withSchedule_argLen (s : State) (es : List Event) : (s.withSchedule es).argLen = s.argLen := rfl
@[simp] theorem State.withSchedule_argType (s : State) (es : List Event) : (s.withSchedule es).argType = s.argType := rfl
@[simp] theorem State.withSchedule_argIndex (s : State) (es : List Event) : (s.withSchedule es).argIndex = s.argIndex := rfl
@[simp] theorem State.withSchedule_argDst (s : State) (es : List Event) : (s.withSchedule es).argDst = s.argDst := rfl
@[simp] theorem State.withSchedule_resLen (s : State) (es : List Event) : (s.withSchedule es).resLen = s.resLen := rfl
@[simp] theorem State.withSchedule_resType (s : State) (es : List Event) : (s.withSchedule es).resType = s.resType := rfl
@[simp] theorem State.withSchedule_resCrc (s : State) (es : List Event) : (s.withSchedule es).resCrc = s.resCrc := rfl
@[simp] theorem State.withSchedule_resIndex (s : State) (es : List Event) : (s.withSchedule es).resIndex = s.resIndex := rfl
@[simp] theorem State.withSchedule_resOffset (s : State) (es : List Event) : (s.withSchedule es).resOffset = s.resOffset := rfl
@[simp] theorem State.withSchedule_crcState (s : State) (es : List Event) : (s.withSchedule es).crcState = s.crcState := rfl
@[simp] theorem State.withSchedule_typeFlags (s : State) (es : List Event) : (s.withSchedule es).typeFlags = s.typeFlags := rfl
@[simp] theorem State.withSchedule_seq (s : State) (es : List Event) : (s.withSchedule es).seq = s.seq := rfl
@[simp] theorem State.withSchedule_iobuf (s : State) (es : List Event) : (s.withSchedule es).iobuf = s.iobuf := rfl
@[simp] theorem State.withSchedule_params (s : State) (es : List Event) : (s.withSchedule es).params = s.params := rfl
@[simp] theorem State.withSchedule_draws (s : State) (es : List Event) : (s.withSchedule es).draws = s.draws := rfl
@[simp] theorem State.withSchedule_schedule (s : State) (es : List Event) : (s.withSchedule es).schedule = es := rfl
@[simp] theorem State.withSchedule_rdata (s : State) (es : List Event) : (s.withSchedule es).rdata = s.rdata := rfl

/-! ## `State.violate`, 10_state.md R38 -/

@[simp] theorem State.violate_ie (s : State) : (s.violate).ie = s.ie := rfl
@[simp] theorem State.violate_busy (s : State) : (s.violate).busy = s.busy := rfl
@[simp] theorem State.violate_done (s : State) : (s.violate).done = s.done := rfl
@[simp] theorem State.violate_pv (s : State) : (s.violate).pv = true := rfl
@[simp] theorem State.violate_lastcmd (s : State) : (s.violate).lastcmd = s.lastcmd := rfl
@[simp] theorem State.violate_inflight (s : State) : (s.violate).inflight = s.inflight := rfl
@[simp] theorem State.violate_errcode (s : State) : (s.violate).errcode = s.errcode := rfl
@[simp] theorem State.violate_argAddr (s : State) : (s.violate).argAddr = s.argAddr := rfl
@[simp] theorem State.violate_argLen (s : State) : (s.violate).argLen = s.argLen := rfl
@[simp] theorem State.violate_argType (s : State) : (s.violate).argType = s.argType := rfl
@[simp] theorem State.violate_argIndex (s : State) : (s.violate).argIndex = s.argIndex := rfl
@[simp] theorem State.violate_argDst (s : State) : (s.violate).argDst = s.argDst := rfl
@[simp] theorem State.violate_resLen (s : State) : (s.violate).resLen = s.resLen := rfl
@[simp] theorem State.violate_resType (s : State) : (s.violate).resType = s.resType := rfl
@[simp] theorem State.violate_resCrc (s : State) : (s.violate).resCrc = s.resCrc := rfl
@[simp] theorem State.violate_resIndex (s : State) : (s.violate).resIndex = s.resIndex := rfl
@[simp] theorem State.violate_resOffset (s : State) : (s.violate).resOffset = s.resOffset := rfl
@[simp] theorem State.violate_crcState (s : State) : (s.violate).crcState = s.crcState := rfl
@[simp] theorem State.violate_typeFlags (s : State) : (s.violate).typeFlags = s.typeFlags := rfl
@[simp] theorem State.violate_seq (s : State) : (s.violate).seq = s.seq := rfl
@[simp] theorem State.violate_iobuf (s : State) : (s.violate).iobuf = s.iobuf := rfl
@[simp] theorem State.violate_params (s : State) : (s.violate).params = s.params := rfl
@[simp] theorem State.violate_draws (s : State) : (s.violate).draws = s.draws := rfl
@[simp] theorem State.violate_schedule (s : State) : (s.violate).schedule = s.schedule := rfl
@[simp] theorem State.violate_rdata (s : State) : (s.violate).rdata = s.rdata := rfl

/-! ## `State.resetWith`, 10_state.md R65 -/

@[simp] theorem State.resetWith_ie (p : Params) : (State.resetWith p).ie = false := rfl
@[simp] theorem State.resetWith_busy (p : Params) : (State.resetWith p).busy = false := rfl
@[simp] theorem State.resetWith_done (p : Params) : (State.resetWith p).done = false := rfl
@[simp] theorem State.resetWith_pv (p : Params) : (State.resetWith p).pv = false := rfl
@[simp] theorem State.resetWith_lastcmd (p : Params) : (State.resetWith p).lastcmd = 0 := rfl
@[simp] theorem State.resetWith_inflight (p : Params) : (State.resetWith p).inflight = none := rfl
@[simp] theorem State.resetWith_errcode (p : Params) : (State.resetWith p).errcode = 0 := rfl
@[simp] theorem State.resetWith_argAddr (p : Params) : (State.resetWith p).argAddr = 0 := rfl
@[simp] theorem State.resetWith_argLen (p : Params) : (State.resetWith p).argLen = 0 := rfl
@[simp] theorem State.resetWith_argType (p : Params) : (State.resetWith p).argType = 0 := rfl
@[simp] theorem State.resetWith_argIndex (p : Params) : (State.resetWith p).argIndex = 0 := rfl
@[simp] theorem State.resetWith_argDst (p : Params) : (State.resetWith p).argDst = 0 := rfl
@[simp] theorem State.resetWith_resLen (p : Params) : (State.resetWith p).resLen = 0 := rfl
@[simp] theorem State.resetWith_resType (p : Params) : (State.resetWith p).resType = 0 := rfl
@[simp] theorem State.resetWith_resCrc (p : Params) : (State.resetWith p).resCrc = 0 := rfl
@[simp] theorem State.resetWith_resIndex (p : Params) : (State.resetWith p).resIndex = 0 := rfl
@[simp] theorem State.resetWith_resOffset (p : Params) : (State.resetWith p).resOffset = 0 := rfl
@[simp] theorem State.resetWith_crcState (p : Params) : (State.resetWith p).crcState = 0xFFFFFFFF := rfl
@[simp] theorem State.resetWith_typeFlags (p : Params) : (State.resetWith p).typeFlags = 0 := rfl
@[simp] theorem State.resetWith_seq (p : Params) : (State.resetWith p).seq = [] := rfl
@[simp] theorem State.resetWith_iobuf (p : Params) : (State.resetWith p).iobuf = [] := rfl
@[simp] theorem State.resetWith_params (p : Params) : (State.resetWith p).params = p := rfl
@[simp] theorem State.resetWith_draws (p : Params) : (State.resetWith p).draws = 0 := rfl
@[simp] theorem State.resetWith_schedule (p : Params) : (State.resetWith p).schedule = [] := rfl
@[simp] theorem State.resetWith_rdata (p : Params) : (State.resetWith p).rdata = 0 := rfl

/-! ## `State.resetBlock`, 70_reset_and_hazards.md R370 -/

@[simp] theorem State.resetBlock_ie (s : State) : s.resetBlock.ie = false := rfl
@[simp] theorem State.resetBlock_busy (s : State) : s.resetBlock.busy = false := rfl
@[simp] theorem State.resetBlock_done (s : State) : s.resetBlock.done = false := rfl
@[simp] theorem State.resetBlock_pv (s : State) : s.resetBlock.pv = false := rfl
@[simp] theorem State.resetBlock_lastcmd (s : State) : s.resetBlock.lastcmd = 0 := rfl
@[simp] theorem State.resetBlock_inflight (s : State) : s.resetBlock.inflight = none := rfl
@[simp] theorem State.resetBlock_errcode (s : State) : s.resetBlock.errcode = 0 := rfl
@[simp] theorem State.resetBlock_argAddr (s : State) : s.resetBlock.argAddr = 0 := rfl
@[simp] theorem State.resetBlock_argLen (s : State) : s.resetBlock.argLen = 0 := rfl
@[simp] theorem State.resetBlock_argType (s : State) : s.resetBlock.argType = 0 := rfl
@[simp] theorem State.resetBlock_argIndex (s : State) : s.resetBlock.argIndex = 0 := rfl
@[simp] theorem State.resetBlock_argDst (s : State) : s.resetBlock.argDst = 0 := rfl
@[simp] theorem State.resetBlock_resLen (s : State) : s.resetBlock.resLen = 0 := rfl
@[simp] theorem State.resetBlock_resType (s : State) : s.resetBlock.resType = 0 := rfl
@[simp] theorem State.resetBlock_resCrc (s : State) : s.resetBlock.resCrc = 0 := rfl
@[simp] theorem State.resetBlock_resIndex (s : State) : s.resetBlock.resIndex = 0 := rfl
@[simp] theorem State.resetBlock_resOffset (s : State) : s.resetBlock.resOffset = 0 := rfl
@[simp] theorem State.resetBlock_crcState (s : State) : s.resetBlock.crcState = 0xFFFFFFFF := rfl
@[simp] theorem State.resetBlock_typeFlags (s : State) : s.resetBlock.typeFlags = 0 := rfl
@[simp] theorem State.resetBlock_seq (s : State) : s.resetBlock.seq = [] := rfl
@[simp] theorem State.resetBlock_iobuf (s : State) : s.resetBlock.iobuf = [] := rfl
@[simp] theorem State.resetBlock_params (s : State) : s.resetBlock.params = s.params := rfl
@[simp] theorem State.resetBlock_draws (s : State) : s.resetBlock.draws = s.draws := rfl
@[simp] theorem State.resetBlock_schedule (s : State) : s.resetBlock.schedule = s.schedule := rfl
@[simp] theorem State.resetBlock_rdata (s : State) : s.resetBlock.rdata = s.rdata := rfl

@[simp] theorem State.withSchedule_twice (s : State) (es fs : List Event) :
    (s.withSchedule es).withSchedule fs = s.withSchedule fs := rfl

end Sys2Proof.Machine
end

