-- ==== Sys2Proof/Laws/Memory.lean ====
section
/-! SUPPORT. The laws of the IO buffer: a read after a write, every other byte unchanged, and the canonical form kept
by every operation. -/

namespace Sys2Proof.Machine

@[simp] theorem Memory.get?_nil (a : Nat) : Memory.get? [] a = none := rfl

theorem Memory.get?_cons (k : Nat) (v : Byte) (m : Memory) (a : Nat) :
    Memory.get? ((k, v) :: m) a = if k = a then some v else Memory.get? m a := rfl

/-- A byte read after a write of one byte. -/
theorem Memory.get?_set (m : Memory) (a k : Nat) (b : Byte) :
    Memory.get? (Memory.set m a b) k = if k = a then some b else Memory.get? m k := by
  induction m with
  | nil => simp [Memory.set, Memory.get?_cons, eq_comm]
  | cons kv m ih =>
    obtain ⟨j, v⟩ := kv
    simp only [Memory.set]
    split
    · simp only [Memory.get?_cons, eq_comm]
    · split <;> rename_i h
      · subst h
        simp only [Memory.get?_cons]
        by_cases hk : k = a
        · simp [hk]
        · simp [hk, Ne.symm hk]
      · simp only [Memory.get?_cons, ih]
        split <;> rename_i hj
        · subst hj
          simp [Ne.symm h]
        · rfl

@[simp] theorem Memory.get?_set_same (m : Memory) (a : Nat) (b : Byte) : Memory.get? (Memory.set m a b) a = some b := by
  simp [Memory.get?_set]

theorem Memory.get?_set_other (m : Memory) (a k : Nat) (b : Byte) (h : k ≠ a) :
    Memory.get? (Memory.set m a b) k = Memory.get? m k := by
  simp [Memory.get?_set, h]

/-- A byte read after a write of a sequence: the sequence's byte inside its range, the old byte outside. -/
theorem Memory.get?_setBytes (m : Memory) (a k : Nat) (bs : List Byte) :
    Memory.get? (Memory.setBytes m a bs) k
      = if a ≤ k ∧ k < a + bs.length then bs[k - a]? else Memory.get? m k := by
  induction bs generalizing m a with
  | nil =>
    rw [if_neg]
    · rfl
    · simp
  | cons b bs ih =>
    rw [Memory.setBytes, ih, Memory.get?_set, List.length_cons]
    by_cases hk : k = a
    · subst hk
      rw [if_neg (by omega), if_pos rfl, if_pos (by omega)]
      simp
    · rw [if_neg hk]
      by_cases hr : a + 1 ≤ k ∧ k < a + 1 + bs.length
      · rw [if_pos hr, if_pos (by omega), show k - a = (k - (a + 1)) + 1 by omega, List.getElem?_cons_succ]
      · rw [if_neg hr, if_neg (by omega)]

theorem Memory.get?_setBytes_inside (m : Memory) (a i : Nat) (bs : List Byte) (h : i < bs.length) :
    Memory.get? (Memory.setBytes m a bs) (a + i) = bs[i]? := by
  rw [Memory.get?_setBytes, if_pos (by omega), Nat.add_sub_cancel_left]

theorem Memory.get?_setBytes_outside (m : Memory) (a k : Nat) (bs : List Byte) (h : k < a ∨ a + bs.length ≤ k) :
    Memory.get? (Memory.setBytes m a bs) k = Memory.get? m k := by
  rw [Memory.get?_setBytes, if_neg (by omega)]

/-- The offsets of a memory after a write are the old ones and the written one. -/
theorem Memory.mem_set (m : Memory) (a : Nat) (b : Byte) (c : Host.Cell) (h : c ∈ Memory.set m a b) :
    c.1 = a ∨ c ∈ m := by
  induction m with
  | nil => simp [Memory.set] at h; simp [h]
  | cons kv m ih =>
    obtain ⟨j, v⟩ := kv
    simp only [Memory.set] at h
    split at h
    · rcases List.mem_cons.mp h with rfl | h
      · exact .inl rfl
      · exact .inr h
    · split at h
      · rcases List.mem_cons.mp h with rfl | h
        · exact .inl rfl
        · exact .inr (List.mem_cons_of_mem _ h)
      · rcases List.mem_cons.mp h with rfl | h
        · exact .inr (List.mem_cons_self)
        · exact (ih h).imp id (List.mem_cons_of_mem _)

/-- Writing a byte keeps the canonical form. -/
theorem Memory.wf_set (m : Memory) (a : Nat) (b : Byte) (h : Memory.wf m) : Memory.wf (Memory.set m a b) := by
  induction m with
  | nil => exact List.pairwise_singleton _ _
  | cons kv m ih =>
    obtain ⟨j, v⟩ := kv
    have hjm := (List.pairwise_cons.mp h).1
    have hm := (List.pairwise_cons.mp h).2
    simp only [Memory.set]
    split <;> rename_i h1
    · refine List.pairwise_cons.mpr ⟨fun c hc => ?_, h⟩
      rcases List.mem_cons.mp hc with rfl | hc
      · exact h1
      · exact Nat.lt_trans h1 (hjm c hc)
    · split <;> rename_i h2
      · subst h2
        exact List.pairwise_cons.mpr ⟨hjm, hm⟩
      · refine List.pairwise_cons.mpr ⟨fun c hc => ?_, ih hm⟩
        rcases Memory.mem_set m a b c hc with hca | hc
        · simp only [hca]; omega
        · exact hjm c hc

/-- Writing a byte sequence keeps the canonical form. -/
theorem Memory.wf_setBytes (m : Memory) (a : Nat) (bs : List Byte) (h : Memory.wf m) :
    Memory.wf (Memory.setBytes m a bs) := by
  induction bs generalizing m a with
  | nil => exact h
  | cons b bs ih => exact ih _ _ (Memory.wf_set m a b h)

theorem Memory.wf_resetWith (p : Params) : Memory.wf (State.resetWith p).iobuf := List.Pairwise.nil

/-- In the canonical form an offset has one entry: reading it finds the entry listed for it. -/
theorem Memory.get?_of_mem (m : Memory) (a : Nat) (b : Byte) (h : Memory.wf m) (hc : (a, b) ∈ m) :
    Memory.get? m a = some b := by
  induction m with
  | nil => simp at hc
  | cons kv m ih =>
    obtain ⟨j, v⟩ := kv
    have hjm := (List.pairwise_cons.mp h).1
    rcases List.mem_cons.mp hc with heq | hc
    · cases heq
      simp [Memory.get?_cons]
    · have : j < a := hjm (a, b) hc
      rw [Memory.get?_cons, if_neg (by omega)]
      exact ih (List.pairwise_cons.mp h).2 hc

theorem Memory.get?_below (m : Memory) (a : Nat) (h : ∀ c ∈ m, a < c.1) : Memory.get? m a = none := by
  induction m with
  | nil => rfl
  | cons kv m ih =>
    obtain ⟨j, v⟩ := kv
    have : a < j := h (j, v) List.mem_cons_self
    rw [Memory.get?_cons, if_neg (by omega)]
    exact ih fun c hc => h c (List.mem_cons_of_mem _ hc)

/-- Canonical memories that read alike are equal data. -/
theorem Memory.ext_of_wf (m n : Memory) (hm : Memory.wf m) (hn : Memory.wf n)
    (h : ∀ a, Memory.get? m a = Memory.get? n a) : m = n := by
  induction m generalizing n with
  | nil =>
    cases n with
    | nil => rfl
    | cons kv n => have := h kv.1; obtain ⟨j, v⟩ := kv; simp [Memory.get?_cons] at this
  | cons kv m ih =>
    obtain ⟨j, v⟩ := kv
    have hjm := (List.pairwise_cons.mp hm).1
    cases n with
    | nil => have := h j; simp [Memory.get?_cons] at this
    | cons kw n =>
      obtain ⟨k, w⟩ := kw
      have hkn := (List.pairwise_cons.mp hn).1
      have hjk : j = k := by
        rcases Nat.lt_trichotomy j k with hlt | heq | hgt
        · have := h j
          rw [Memory.get?_cons, if_pos rfl, Memory.get?_cons, if_neg (by omega),
            Memory.get?_below n j (fun c hc => Nat.lt_trans hlt (hkn c hc))] at this
          cases this
        · exact heq
        · have := h k
          rw [Memory.get?_cons, if_neg (by omega), Memory.get?_cons, if_pos rfl,
            Memory.get?_below m k (fun c hc => Nat.lt_trans hgt (hjm c hc))] at this
          cases this
      subst hjk
      have hv : v = w := by
        have := h j
        simpa [Memory.get?_cons] using this
      subst hv
      congr 1
      refine ih n (List.pairwise_cons.mp hm).2 (List.pairwise_cons.mp hn).2 fun a => ?_
      have ha := h a
      simp only [Memory.get?_cons] at ha
      by_cases hja : j = a
      · subst hja
        rw [Memory.get?_below m j hjm, Memory.get?_below n j hkn]
      · simpa [hja] using ha

/-! ## Reading IOBUF (00_scope.md R17) -/

/-- A written byte reads as the value last written, whatever the draw (10_state.md R61). -/
theorem State.readByte_written (s : State) (a k : Nat) (b : Byte) (h : Memory.get? s.iobuf a = some b) :
    s.readByte a k = b := by
  simp [State.readByte, h]

/-- An unwritten byte reads as the free byte of its draw (10_state.md R61). -/
theorem State.readByte_unwritten (s : State) (a k : Nat) (h : Memory.get? s.iobuf a = none) :
    s.readByte a k = Config.freeByte k := by
  simp [State.readByte, h]

@[simp] theorem State.length_memRead (s : State) (a n : Nat) : (s.memRead a n).length = n := by
  simp [State.memRead]

theorem State.memRead_get? (s : State) (a n i : Nat) (h : i < n) :
    (s.memRead a n)[i]? = some (s.readByte (a + i) (s.draws + i)) := by
  simp [State.memRead, h]

/-- Reading bytes that are all written returns them. -/
theorem State.memRead_written (s : State) (a : Nat) (bs : List Byte)
    (h : ∀ k, k < bs.length → Memory.get? s.iobuf (a + k) = bs[k]?) : s.memRead a bs.length = bs := by
  refine List.ext_getElem? fun i => ?_
  by_cases hi : i < bs.length
  · have hb : bs[i]? = some bs[i] := List.getElem?_eq_getElem hi
    rw [State.memRead_get? s a _ i hi, hb, State.readByte_written s _ _ _ ((h i hi).trans hb)]
  · rw [List.getElem?_eq_none (by simpa using hi), List.getElem?_eq_none (by simpa using hi)]

theorem State.inBuf_iff (s : State) (a n : Nat) : s.inBuf a n = true ↔ a + n ≤ s.params.bufBytes := by
  simp [State.inBuf]

theorem State.roomFor_iff (s : State) (n : Nat) :
    s.roomFor n = true ↔ s.seq.length + 1 ≤ s.params.maxChunks ∧ dataBytes s.seq + n ≤ s.params.storeBytes := by
  simp [State.roomFor]

@[simp] theorem dataBytes_nil : dataBytes [] = 0 := rfl

@[simp] theorem dataBytes_cons (c : Chunk) (q : List Chunk) : dataBytes (c :: q) = c.data.length + dataBytes q := by
  simp [dataBytes]

@[simp] theorem dataBytes_append (q r : List Chunk) : dataBytes (q ++ r) = dataBytes q + dataBytes r := by
  simp [dataBytes]

end Sys2Proof.Machine
end

