-- ==== Sys2Proof/Laws/Png.lean ====
section
/-! SUPPORT. What parsing, serializing, searching and editing a chunk list answer (43_png.md R241-R248), each said once. -/

namespace Sys2Proof.Machine

@[simp] theorem serLength_nil : serLength [] = 0 := rfl

@[simp] theorem serLength_cons (c : Chunk) (q : List Chunk) : serLength (c :: q) = 12 + c.data.length + serLength q := by
  simp [serLength]

@[simp] theorem serLength_append (q r : List Chunk) : serLength (q ++ r) = serLength q + serLength r := by
  simp [serLength]

/-- The length of a serialized list (R246). -/
theorem length_serPng (q : List Chunk) : (serPng q).length = 8 + serLength q := by
  have h : (q.flatMap serChunk).length = serLength q := by
    induction q with
    | nil => rfl
    | cons c q ih => simp [length_serChunk, ih]
  rw [serPng, List.length_append, h]
  rfl

/-! ## The chunk loop (R241) -/

/-- With enough fuel for the bytes left, one turn of the loop is R241's: done on no bytes, else one chunk, its own
checks before the capacity check. -/
theorem parseChunks_succ (ps : Params) (fuel : Nat) (rest : List Byte) (p : Nat) (out : List Chunk) :
    parseChunks ps (fuel + 1) rest p out =
      if rest = [] then .ok out
      else
        match parseChunk rest with
        | .error k => .error { kind := k, offset := p, count := out.length }
        | .ok (c, m) =>
          if out.length + 1 > ps.maxChunks ∨ dataBytes out + c.data.length > ps.storeBytes then
            .error { kind := .capacityExceeded, offset := p, count := out.length }
          else parseChunks ps fuel (rest.drop m) (p + m) (out ++ [c]) := rfl

/-- The fuel is never used up: any two fuels of at least the number of bytes left give the same answer. -/
theorem parseChunks_fuel (ps : Params) (f g : Nat) (rest : List Byte) (p : Nat) (out : List Chunk)
    (hf : rest.length ≤ f) (hg : rest.length ≤ g) : parseChunks ps f rest p out = parseChunks ps g rest p out := by
  induction f generalizing g rest p out with
  | zero =>
    have : rest = [] := List.eq_nil_of_length_eq_zero (by omega)
    subst this
    cases g <;> simp [parseChunks]
  | succ f ih =>
    cases g with
    | zero =>
      have : rest = [] := List.eq_nil_of_length_eq_zero (by omega)
      subst this
      simp [parseChunks]
    | succ g =>
      rw [parseChunks_succ, parseChunks_succ]
      cases h : parseChunk rest with
      | error k => rfl
      | ok r =>
        obtain ⟨c, m⟩ := r
        obtain ⟨-, -, hm, -⟩ := parseChunk_ok rest c m h
        have hd : (rest.drop m).length ≤ f ∧ (rest.drop m).length ≤ g := by
          rw [List.length_drop]; omega
        simp only [ih g (rest.drop m) (p + m) (out ++ [c]) hd.1 hd.2]

/-- One turn of the loop as R241 writes it, whatever fuel covers the bytes left. -/
theorem parseChunks_step (ps : Params) (f : Nat) (rest : List Byte) (p : Nat) (out : List Chunk)
    (hf : rest.length ≤ f) (hne : rest ≠ []) :
    parseChunks ps f rest p out =
      match parseChunk rest with
      | .error k => .error { kind := k, offset := p, count := out.length }
      | .ok (c, m) =>
        if out.length + 1 > ps.maxChunks ∨ dataBytes out + c.data.length > ps.storeBytes then
          .error { kind := .capacityExceeded, offset := p, count := out.length }
        else parseChunks ps f (rest.drop m) (p + m) (out ++ [c]) := by
  have hpos : 0 < rest.length := List.length_pos_iff.mpr hne
  obtain ⟨g, rfl⟩ : ∃ g, f = g + 1 := ⟨f - 1, by omega⟩
  rw [parseChunks_succ, if_neg hne]
  cases h : parseChunk rest with
  | error k => rfl
  | ok r =>
    obtain ⟨c, m⟩ := r
    obtain ⟨-, -, hm, -⟩ := parseChunk_ok rest c m h
    have hd : (rest.drop m).length ≤ g := by rw [List.length_drop]; omega
    simp only [parseChunks_fuel ps g (g + 1) (rest.drop m) (p + m) (out ++ [c]) hd (by omega)]

@[simp] theorem parseChunks_nil (ps : Params) (f p : Nat) (out : List Chunk) : parseChunks ps f [] p out = .ok out := by
  cases f <;> simp [parseChunks]

/-- Everything a successful chunk loop keeps: each new record satisfies R57's CRC and type clauses, its data are among
the bytes parsed, and the capacities hold (R245). -/
theorem parseChunks_ok (ps : Params) (f : Nat) (rest : List Byte) (p : Nat) (out q : List Chunk)
    (hok : ∀ c ∈ out, c.crc = chunkCrc c.type c.data ∧ c.type.constructible = true ∧ c.data.length ≤ p + rest.length)
    (hn : out.length ≤ ps.maxChunks) (hb : dataBytes out ≤ ps.storeBytes)
    (h : parseChunks ps f rest p out = .ok q) :
    (∀ c ∈ q, c.crc = chunkCrc c.type c.data ∧ c.type.constructible = true ∧ c.data.length ≤ p + rest.length) ∧
      q.length ≤ ps.maxChunks ∧ dataBytes q ≤ ps.storeBytes := by
  induction f generalizing rest p out with
  | zero => cases h; exact ⟨hok, hn, hb⟩
  | succ f ih =>
    rw [parseChunks_succ] at h
    split at h
    · cases h; exact ⟨hok, hn, hb⟩
    · split at h
      · cases h
      · rename_i c m hc
        obtain ⟨hcrc, hcon, hm, hle⟩ := parseChunk_ok rest c m hc
        split at h
        · cases h
        · rename_i hcap
          have e : p + m + (rest.drop m).length = p + rest.length := by rw [List.length_drop]; omega
          rw [← e]
          refine ih (rest.drop m) (p + m) (out ++ [c]) ?_ ?_ ?_ h
          · intro d hd
            rw [e]
            rcases List.mem_append.mp hd with hd | hd
            · exact hok d hd
            · rw [List.mem_singleton.mp hd]
              exact ⟨hcrc, hcon, by omega⟩
          · rw [List.length_append, List.length_singleton]; omega
          · rw [dataBytes_append, dataBytes_cons, dataBytes_nil]; omega

/-- Everything a successful parse of an image says of its chunk list. -/
theorem parsePng_ok (ps : Params) (s : List Byte) (q : List Chunk) (h : parsePng ps s = .ok q) :
    s.take 8 = pngSignature ∧
    (∀ c ∈ q, c.crc = chunkCrc c.type c.data ∧ c.type.constructible = true ∧ c.data.length ≤ s.length) ∧
      q.length ≤ ps.maxChunks ∧ dataBytes q ≤ ps.storeBytes := by
  unfold parsePng at h
  split at h
  · rename_i hs
    have hlen : 8 ≤ s.length := by
      have := congrArg List.length hs
      simp [pngSignature] at this
      omega
    have e : 8 + (s.drop 8).length = s.length := by rw [List.length_drop]; omega
    have := parseChunks_ok ps s.length (s.drop 8) 8 [] q (by simp) (by simp) (by simp) h
    rw [e] at this
    exact ⟨hs, this⟩
  · cases h

/-- The error kinds the chunk loop can answer. -/
theorem parseChunks_error_kind (ps : Params) (f : Nat) (rest : List Byte) (p : Nat) (out : List Chunk) (e : PngError)
    (h : parseChunks ps f rest p out = .error e) :
    e.kind = .bufferTooShort ∨ e.kind = .invalidCrc ∨ e.kind = .invalidTypeByte ∨ e.kind = .capacityExceeded := by
  induction f generalizing rest p out with
  | zero => cases h
  | succ f ih =>
    rw [parseChunks_succ] at h
    split at h
    · cases h
    · split at h
      · rename_i k hk
        cases h
        rcases parseChunk_error_kind rest k hk with h | h | h <;> simp [h]
      · split at h
        · cases h; simp
        · exact ih _ _ _ h

theorem parsePng_error_kind (ps : Params) (s : List Byte) (e : PngError) (h : parsePng ps s = .error e) :
    e.kind = .invalidSignature ∨ e.kind = .bufferTooShort ∨ e.kind = .invalidCrc ∨ e.kind = .invalidTypeByte ∨
      e.kind = .capacityExceeded := by
  unfold parsePng at h
  split at h
  · exact .inr (parseChunks_error_kind ps _ _ _ _ e h)
  · cases h; simp

/-! ## Searching and editing (R247, R248) -/

/-- What `findFirst` answers: the least index of the type, with its record (R247). -/
theorem findFirst_eq_some_iff (t : ChunkType) (q : List Chunk) (i : Nat) (c : Chunk) :
    findFirst t q = some (i, c) ↔ q[i]? = some c ∧ c.type = t ∧ ∀ j, j < i → ∀ d, q[j]? = some d → d.type ≠ t := by
  induction q generalizing i with
  | nil => simp [findFirst]
  | cons a q ih =>
    unfold findFirst
    split <;> rename_i h
    · constructor
      · rintro ⟨⟩
        exact ⟨rfl, h, by omega⟩
      · rintro ⟨hi, ht, hlt⟩
        cases i with
        | zero => cases hi; rfl
        | succ i => exact absurd h (hlt 0 (by omega) a rfl)
    · constructor
      · intro hf
        rw [Option.map_eq_some_iff] at hf
        obtain ⟨⟨k, d⟩, hk, he⟩ := hf
        cases he
        obtain ⟨h1, h2, h3⟩ := (ih k).mp hk
        refine ⟨h1, h2, fun j hj e he => ?_⟩
        cases j with
        | zero => cases he; exact h
        | succ j => exact h3 j (by omega) e he
      · rintro ⟨hi, ht, hlt⟩
        cases i with
        | zero => cases hi; exact absurd ht h
        | succ i =>
          rw [(ih i).mpr ⟨hi, ht, fun j hj e he => hlt (j + 1) (by omega) e he⟩]
          rfl

theorem findFirst_eq_none_iff (t : ChunkType) (q : List Chunk) : findFirst t q = none ↔ ∀ c ∈ q, c.type ≠ t := by
  induction q with
  | nil => simp [findFirst]
  | cons a q ih =>
    unfold findFirst
    split <;> simp_all

theorem insertPos_le (q : List Chunk) : insertPos q ≤ q.length := by
  unfold insertPos
  split
  · split <;> omega
  · omega

theorem removeAt_sublist (q : List Chunk) (i : Nat) : (removeAt q i).Sublist q := by
  conv => rhs; rw [← List.take_append_drop i q]
  exact (List.Sublist.refl _).append ((List.drop_sublist_drop_left q (Nat.le_succ i)))

theorem sublist_insertAt (q : List Chunk) (i : Nat) (c : Chunk) : q.Sublist (insertAt q i c) := by
  conv => lhs; rw [← List.take_append_drop i q]
  exact (List.sublist_append_left _ _).append (List.Sublist.refl _)

@[simp] theorem length_insertAt (q : List Chunk) (i : Nat) (c : Chunk) : (insertAt q i c).length = q.length + 1 := by
  have := congrArg List.length (List.take_append_drop i q)
  simp only [insertAt, List.length_append, List.length_singleton] at *
  omega

@[simp] theorem dataBytes_insertAt (q : List Chunk) (i : Nat) (c : Chunk) :
    dataBytes (insertAt q i c) = dataBytes q + c.data.length := by
  have := congrArg dataBytes (List.take_append_drop i q)
  simp only [insertAt, dataBytes_append, dataBytes_cons, dataBytes_nil] at *
  omega

theorem mem_insertAt (q : List Chunk) (i : Nat) (c d : Chunk) (h : d ∈ insertAt q i c) : d = c ∨ d ∈ q := by
  simp only [insertAt, List.mem_append, List.mem_singleton] at h
  rcases h with (h | h) | h
  · exact .inr (List.mem_of_mem_take h)
  · exact .inl h
  · exact .inr (List.mem_of_mem_drop h)

@[simp] theorem insertAt_length (q : List Chunk) (c : Chunk) : insertAt q q.length c = q ++ [c] := by
  simp [insertAt]

end Sys2Proof.Machine
end

