-- ==== Sys2Proof/Laws/Exec.lean ====
section
/-! SUPPORT. What each command answers, said once per command: the next state on each of its paths, so that no later
proof unfolds a meaning. `State.complete` 0 is the success of 60_exceptions.md R334, another code the error of R330. -/

namespace Sys2Proof.Machine

theorem succeed_eq (s : State) : succeed s = .next (s.complete 0) := rfl

theorem raise_eq (k : ErrorKind) (s : State) : raise k s = .next (s.complete k.code) := rfl

theorem exec_nop (s : State) : exec .nop s = .next (s.complete 0) := rfl

theorem exec_crcInit (s : State) : exec .crcInit s = .next (State.complete { s with crcState := 0xFFFFFFFF } 0) := rfl

theorem exec_crcByte (b : Byte) (s : State) :
    exec (.crcByte b) s = .next (State.complete { s with crcState := crcStep s.crcState b } 0) := rfl

theorem exec_pngClear (s : State) : exec .pngClear s = .next (State.complete { s with seq := [] } 0) := rfl

theorem exec_crcBuf (s : State) :
    exec .crcBuf s =
      if s.sourceInBuf then .next (State.complete { s.afterSource with crcState := crcFeed s.crcState s.sourceBytes } 0)
      else .next (s.complete 9) := rfl

theorem exec_typeCheck (s : State) :
    exec .typeCheck s =
      .next (s.typeChecked.complete
        (if (ChunkType.ofWord s.argType).constructible then 0 else 4)) := by
  show execTypeCheck s = _
  unfold execTypeCheck
  cases (ChunkType.ofWord s.argType).constructible <;> rfl

theorem exec_chunkParse_cases (s : State) :
    (s.sourceInBuf = false ∧ exec .chunkParse s = .next (s.complete 9)) ∨
    (s.sourceInBuf = true ∧ ∃ k, parseChunk s.sourceBytes = .error k ∧
      exec .chunkParse s = .next (s.afterSource.complete k.code)) ∨
    (s.sourceInBuf = true ∧ ∃ c m, parseChunk s.sourceBytes = .ok (c, m) ∧
      exec .chunkParse s = .next (State.complete { s.afterSource with
        resLen := toReg c.data.length, resType := c.type.toWord, resCrc := c.crc, resOffset := toReg m } 0)) := by
  show (_ ∧ execChunkParse s = _) ∨ (_ ∧ ∃ k, _ ∧ execChunkParse s = _) ∨ (_ ∧ ∃ c m, _ ∧ execChunkParse s = _)
  unfold execChunkParse
  cases s.sourceInBuf with
  | false => exact .inl ⟨rfl, rfl⟩
  | true =>
    cases h : parseChunk s.sourceBytes with
    | error k => exact .inr (.inl ⟨rfl, k, rfl, rfl⟩)
    | ok r => exact .inr (.inr ⟨rfl, r.1, r.2, rfl, rfl⟩)

theorem exec_chunkBuild_cases (s : State) :
    ((s.sourceInBuf = false ∨ s.inBuf s.argDst.toNat (12 + s.argLen.toNat) = false) ∧
      exec .chunkBuild s = .next (s.complete 9)) ∨
    (s.sourceInBuf = true ∧ s.inBuf s.argDst.toNat (12 + s.argLen.toNat) = true ∧
      (ChunkType.ofWord s.argType).constructible = false ∧ exec .chunkBuild s = .next (s.afterSource.complete 4)) ∨
    (s.sourceInBuf = true ∧ s.inBuf s.argDst.toNat (12 + s.argLen.toNat) = true ∧ ∃ c,
      mkChunk (ChunkType.ofWord s.argType) s.sourceBytes = .ok c ∧
      exec .chunkBuild s = .next (State.complete { s.afterSource.memWrite s.argDst.toNat (serChunk c) with
        resLen := s.argLen, resType := s.argType, resCrc := c.crc, resOffset := toReg (12 + s.argLen.toNat) } 0)) := by
  show (_ ∧ execChunkBuild s = _) ∨ (_ ∧ _ ∧ _ ∧ execChunkBuild s = _) ∨ (_ ∧ _ ∧ ∃ c, _ ∧ execChunkBuild s = _)
  unfold execChunkBuild
  cases s.sourceInBuf with
  | false => exact .inl ⟨.inl rfl, rfl⟩
  | true =>
    cases s.inBuf s.argDst.toNat (12 + s.argLen.toNat) with
    | false => exact .inl ⟨.inr rfl, rfl⟩
    | true =>
      cases h : mkChunk (ChunkType.ofWord s.argType) s.sourceBytes with
      | error k =>
        obtain ⟨hc, rfl⟩ := (mkChunk_eq_error_iff _ _ k).mp h
        exact .inr (.inl ⟨rfl, rfl, hc, rfl⟩)
      | ok c => exact .inr (.inr ⟨rfl, rfl, c, rfl, rfl⟩)

theorem exec_pngParse_cases (s : State) :
    (s.sourceInBuf = false ∧ exec .pngParse s = .next (s.complete 9)) ∨
    (s.sourceInBuf = true ∧ ∃ e, parsePng s.params s.sourceBytes = .error e ∧
      exec .pngParse s = .next (State.complete
        { s.afterSource with resOffset := toReg e.offset, resIndex := toReg e.count } e.kind.code)) ∨
    (s.sourceInBuf = true ∧ ∃ q, parsePng s.params s.sourceBytes = .ok q ∧
      exec .pngParse s = .next (State.complete
        { s.afterSource with seq := q, resIndex := toReg q.length, resOffset := s.argLen } 0)) := by
  show (_ ∧ execPngParse s = _) ∨ (_ ∧ ∃ e, _ ∧ execPngParse s = _) ∨ (_ ∧ ∃ q, _ ∧ execPngParse s = _)
  unfold execPngParse
  cases s.sourceInBuf with
  | false => exact .inl ⟨rfl, rfl⟩
  | true =>
    cases h : parsePng s.params s.sourceBytes with
    | error e => exact .inr (.inl ⟨rfl, e, rfl, rfl⟩)
    | ok q => exact .inr (.inr ⟨rfl, q, rfl, rfl⟩)

theorem exec_pngSerialize (s : State) :
    exec .pngSerialize s =
      if s.inBuf s.argDst.toNat (serPng s.seq).length then
        .next (State.complete { s.memWrite s.argDst.toNat (serPng s.seq) with
          resLen := toReg (serPng s.seq).length, resIndex := toReg s.seq.length } 0)
      else .next (s.complete 9) := rfl

theorem exec_pngFind_cases (s : State) :
    (findFirst (ChunkType.ofWord s.argType) s.seq = none ∧ exec .pngFind s = .next (s.complete 6)) ∨
    (∃ i c, findFirst (ChunkType.ofWord s.argType) s.seq = some (i, c) ∧
      exec .pngFind s = .next (State.complete { s with
        resIndex := toReg i, resLen := toReg c.data.length, resType := s.argType, resCrc := c.crc
        resOffset := toReg (chunkOffset s.seq i) } 0)) := by
  show (_ ∧ execPngFind s = _) ∨ (∃ i c, _ ∧ execPngFind s = _)
  unfold execPngFind
  cases findFirst (ChunkType.ofWord s.argType) s.seq with
  | none => exact .inl ⟨rfl, rfl⟩
  | some r => exact .inr ⟨r.1, r.2, rfl, rfl⟩

theorem exec_pngRemove_cases (s : State) :
    (findFirst (ChunkType.ofWord s.argType) s.seq = none ∧ exec .pngRemove s = .next (s.complete 6)) ∨
    (∃ i c, findFirst (ChunkType.ofWord s.argType) s.seq = some (i, c) ∧
      exec .pngRemove s = .next (State.complete { s with
        seq := removeAt s.seq i
        resIndex := toReg i, resLen := toReg c.data.length, resType := s.argType, resCrc := c.crc } 0)) := by
  show (_ ∧ execPngRemove s = _) ∨ (∃ i c, _ ∧ execPngRemove s = _)
  unfold execPngRemove
  cases findFirst (ChunkType.ofWord s.argType) s.seq with
  | none => exact .inl ⟨rfl, rfl⟩
  | some r => exact .inr ⟨r.1, r.2, rfl, rfl⟩

/-- What PNG_APPEND and PNG_INSERT share (R254, R255). -/
theorem addChunk_cases (pos : Nat) (s : State) :
    (s.sourceInBuf = false ∧ addChunk pos s = .next (s.complete 9)) ∨
    (s.sourceInBuf = true ∧ (ChunkType.ofWord s.argType).constructible = false ∧
      addChunk pos s = .next (s.afterSource.complete 4)) ∨
    (s.sourceInBuf = true ∧ (ChunkType.ofWord s.argType).constructible = true ∧
      s.roomFor s.argLen.toNat = false ∧ addChunk pos s = .next (s.afterSource.complete 10)) ∨
    (s.sourceInBuf = true ∧ s.roomFor s.argLen.toNat = true ∧ ∃ c,
      mkChunk (ChunkType.ofWord s.argType) s.sourceBytes = .ok c ∧
      addChunk pos s = .next (State.complete { s.afterSource with
        seq := insertAt s.seq pos c
        resIndex := toReg pos, resLen := s.argLen, resType := s.argType, resCrc := c.crc } 0)) := by
  unfold addChunk
  cases s.sourceInBuf with
  | false => exact .inl ⟨rfl, rfl⟩
  | true =>
    cases h : mkChunk (ChunkType.ofWord s.argType) s.sourceBytes with
    | error k =>
      obtain ⟨hc, rfl⟩ := (mkChunk_eq_error_iff _ _ k).mp h
      exact .inr (.inl ⟨rfl, hc, rfl⟩)
    | ok c =>
      have hc := ((mkChunk_eq_ok_iff _ _ c).mp h).1
      cases s.roomFor s.argLen.toNat with
      | false => exact .inr (.inr (.inl ⟨rfl, hc, rfl, rfl⟩))
      | true => exact .inr (.inr (.inr ⟨rfl, rfl, c, rfl, rfl⟩))

theorem exec_pngAppend (s : State) : exec .pngAppend s = addChunk s.seq.length s := rfl

theorem exec_pngInsert (s : State) : exec .pngInsert s = addChunk (insertPos s.seq) s := rfl

theorem exec_chunkInfo_cases (s : State) :
    (s.seq[s.argIndex.toNat]? = none ∧ exec .chunkInfo s = .next (s.complete 9)) ∨
    (∃ c, s.seq[s.argIndex.toNat]? = some c ∧
      exec .chunkInfo s = .next (State.complete { s with
        resLen := toReg c.data.length, resType := c.type.toWord, resCrc := c.crc
        resOffset := toReg (chunkOffset s.seq s.argIndex.toNat) } 0)) := by
  show (_ ∧ execChunkInfo s = _) ∨ (∃ c, _ ∧ execChunkInfo s = _)
  unfold execChunkInfo
  cases s.seq[s.argIndex.toNat]? with
  | none => exact .inl ⟨rfl, rfl⟩
  | some c => exact .inr ⟨c, rfl, rfl⟩

theorem exec_chunkData_cases (s : State) :
    ((s.seq[s.argIndex.toNat]? = none ∨
        ∃ c, s.seq[s.argIndex.toNat]? = some c ∧ s.inBuf s.argDst.toNat c.data.length = false) ∧
      exec .chunkData s = .next (s.complete 9)) ∨
    (∃ c, s.seq[s.argIndex.toNat]? = some c ∧ s.inBuf s.argDst.toNat c.data.length = true ∧
      exec .chunkData s = .next (State.complete
        { s.memWrite s.argDst.toNat c.data with resLen := toReg c.data.length } 0)) := by
  show (_ ∧ execChunkData s = _) ∨ (∃ c, _ ∧ _ ∧ execChunkData s = _)
  unfold execChunkData
  cases s.seq[s.argIndex.toNat]? with
  | none => exact .inl ⟨.inl rfl, rfl⟩
  | some c =>
    cases h : s.inBuf s.argDst.toNat c.data.length with
    | false => exact .inl ⟨.inr ⟨c, rfl, h⟩, by simp [h, raise_eq, ErrorKind.code]⟩
    | true => exact .inr ⟨c, rfl, h, by simp [h, succeed_eq]⟩

end Sys2Proof.Machine
end

