-- ==== Sys2Proof/Laws/Flags.lean ====
section
/-! SUPPORT. The bits of STATUS, CTRL and TYPE_FLAGS (10_state.md R34-R38, R53), read off their words. -/

namespace Sys2Proof.Machine

/-- A one-bit field on top of a word, bit by bit. -/
theorem getLsbD_bitField (b : Bool) (i : Nat) : (bitField b).getLsbD i = (decide (i = 0) && b) := by
  simp [bitField, BitVec.getLsbD_ofBool]

/-- STATUS, bit by bit (R35-R38). -/
theorem State.getLsbD_statusWord (s : State) (i : Nat) :
    s.statusWord.getLsbD i =
      if i = 0 then s.busy else if i = 1 then s.done else if i = 2 then s.err else if i = 3 then s.pv else false := by
  simp only [State.statusWord, BitVec.getLsbD_append, getLsbD_bitField]
  rcases i with _ | _ | _ | _ | i
  · simp
  · simp
  · simp
  · simp
  · simp

/-- CTRL, bit by bit (R34). -/
theorem State.getLsbD_ctrlWord (s : State) (i : Nat) : s.ctrlWord.getLsbD i = if i = 0 then s.ie else false := by
  simp only [State.ctrlWord, BitVec.getLsbD_append, getLsbD_bitField]
  rcases i with _ | i
  · simp
  · simp

/-- TYPE_FLAGS, bit by bit (R53). -/
theorem getLsbD_typeFlagsOf (t : ChunkType) (i : Nat) :
    (typeFlagsOf t).getLsbD i =
      if i = 0 then isLetter t.b0 else if i = 1 then isLetter t.b1 else if i = 2 then isLetter t.b2
      else if i = 3 then isLetter t.b3 else if i = 4 then t.allLetters else if i = 8 then t.isCritical
      else if i = 9 then t.isPublic else if i = 10 then t.isReservedBitValid else if i = 11 then t.isSafeToCopy
      else if i = 12 then t.isValid else if i = 13 then t.constructible else false := by
  simp only [typeFlagsOf, BitVec.getLsbD_append, getLsbD_bitField]
  rcases i with _ | _ | _ | _ | _ | _ | _ | _ | _ | _ | _ | _ | _ | _ | i <;> simp

end Sys2Proof.Machine
end

