-- ==== Sys2Proof/Laws/PerInstr.lean ====
section
/-! SUPPORT. What is said of every command one constructor at a time: its word keeps to format C (30_encoding.md
R110-R114). -/

namespace Sys2Proof.Laws

/-- The fields of a command's word are legal, and OPCODE is the command's own. -/
def FormatC.Statement (i : Instr) : Prop :=
  (commandFields (encode i)).legal = true ∧ (commandFields (encode i)).opcode = opcodeOf i

theorem FormatC.nop : FormatC.Statement .nop := ⟨by decide, by decide⟩
theorem FormatC.crcInit : FormatC.Statement .crcInit := ⟨by decide, by decide⟩
theorem FormatC.crcByte (imm8 : Byte) : FormatC.Statement (.crcByte imm8) := by
  simp [FormatC.Statement, CommandFields.legal, CommandFields.opcodeListed, CommandFields.rsvdZero,
    CommandFields.imm8Allowed, opcodeOf, listedOpcodes]
theorem FormatC.crcBuf : FormatC.Statement .crcBuf := ⟨by decide, by decide⟩
theorem FormatC.typeCheck : FormatC.Statement .typeCheck := ⟨by decide, by decide⟩
theorem FormatC.chunkParse : FormatC.Statement .chunkParse := ⟨by decide, by decide⟩
theorem FormatC.chunkBuild : FormatC.Statement .chunkBuild := ⟨by decide, by decide⟩
theorem FormatC.pngClear : FormatC.Statement .pngClear := ⟨by decide, by decide⟩
theorem FormatC.pngParse : FormatC.Statement .pngParse := ⟨by decide, by decide⟩
theorem FormatC.pngSerialize : FormatC.Statement .pngSerialize := ⟨by decide, by decide⟩
theorem FormatC.pngFind : FormatC.Statement .pngFind := ⟨by decide, by decide⟩
theorem FormatC.pngRemove : FormatC.Statement .pngRemove := ⟨by decide, by decide⟩
theorem FormatC.pngAppend : FormatC.Statement .pngAppend := ⟨by decide, by decide⟩
theorem FormatC.pngInsert : FormatC.Statement .pngInsert := ⟨by decide, by decide⟩
theorem FormatC.chunkInfo : FormatC.Statement .chunkInfo := ⟨by decide, by decide⟩
theorem FormatC.chunkData : FormatC.Statement .chunkData := ⟨by decide, by decide⟩

end Sys2Proof.Laws
end

