-- ==== Sys2Proof/Laws/Step.lean ====
section
/-! SUPPORT. What one host access and one step answer, case by case (20_memory.md R86-R92, 70_reset_and_hazards.md
R376, R381). -/

namespace Sys2Proof.Machine

/-! ## Host accesses -/

theorem State.unlessBusy_busy (s t : State) (h : s.busy = true) : s.unlessBusy t = s.violate := by
  simp [State.unlessBusy, h]

theorem State.unlessBusy_idle (s t : State) (h : s.busy = false) : s.unlessBusy t = t := by
  simp [State.unlessBusy, h]

/-- Everything one host access can be: a protocol violation, a register read or write, a buffer read or write. -/
theorem State.hostAccess_cases (s : State) (a : Access) :
    s.hostAccess a = s.violation a.write ∨
    (∃ r, a.space = .reg ∧ a.register? = some r ∧ s.hostAccess a = s.regAccess a r) ∨
    (∃ n, a.space = .buf ∧ s.bufAccess? a = some n ∧ s.hostAccess a = s.bufAccess a n) := by
  unfold State.hostAccess
  cases hs : a.space with
  | reg =>
    cases hr : a.register? with
    | none => exact .inl rfl
    | some r => exact .inr (.inl ⟨r, rfl, rfl, rfl⟩)
  | buf =>
    cases hn : s.bufAccess? a with
    | none => exact .inl rfl
    | some n => exact .inr (.inr ⟨n, rfl, rfl, rfl⟩)

/-- A buffer access that is no violation lies inside the buffer (R86). -/
theorem State.bufAccess?_inside (s : State) (a : Access) (n : Nat) (h : s.bufAccess? a = some n) :
    bufWidth a.width = some n ∧ a.offset.toNat % n = 0 ∧ a.offset.toNat + n ≤ s.params.bufBytes := by
  unfold State.bufAccess? at h
  split at h
  · cases h
  · rename_i m hm
    split at h
    · rename_i hc
      cases h
      exact ⟨hm, hc.1, (State.inBuf_iff s _ _).mp hc.2⟩
    · cases h

/-- No host access touches what only commands write: ERRCODE, the RES_* registers, CRC_STATE, TYPE_FLAGS and SEQ; nor
the parameters and the schedule (R91). -/
theorem State.hostAccess_keeps (s : State) (a : Access) :
    (s.hostAccess a).errcode = s.errcode ∧ (s.hostAccess a).resLen = s.resLen ∧ (s.hostAccess a).resType = s.resType ∧
    (s.hostAccess a).resCrc = s.resCrc ∧ (s.hostAccess a).resIndex = s.resIndex ∧
    (s.hostAccess a).resOffset = s.resOffset ∧ (s.hostAccess a).crcState = s.crcState ∧
    (s.hostAccess a).typeFlags = s.typeFlags ∧ (s.hostAccess a).seq = s.seq ∧ (s.hostAccess a).params = s.params ∧
    (s.hostAccess a).schedule = s.schedule := by
  rcases State.hostAccess_cases s a with h | ⟨r, -, -, h⟩ | ⟨n, -, -, h⟩
  · rw [h]
    unfold State.violation
    split <;> simp
  · rw [h]
    unfold State.regAccess
    split
    · cases r <;> simp only [State.writeReg, State.unlessBusy] <;> first | simp | (split <;> simp)
    · simp
  · rw [h]
    unfold State.bufAccess
    split
    · simp only [State.unlessBusy]
      split <;> simp
    · simp

/-- The protocol violations are the accesses that reach no register and move no byte of the buffer (R86, R89, R90). -/
theorem State.isViolation_iff (s : State) (a : Access) : s.isViolation a ↔
    (a.space = .reg ∧ a.register? = none) ∨ (a.space = .buf ∧ s.bufAccess? a = none) := by
  have hreg : (a.width ≠ .w32 ∨ a.offset.toNat % 4 ≠ 0 ∨ ∀ r, regOffset r ≠ a.offset) ↔ a.register? = none := by
    unfold Access.register?
    by_cases h : a.width = .w32 ∧ a.offset.toNat % 4 = 0
    · rw [if_pos h]
      simp only [h.1, h.2, ne_eq, not_true, false_or, regAt?, List.find?_eq_none, beq_iff_eq]
      exact ⟨fun h r _ => h r, fun h r => h r (by cases r <;> decide)⟩
    · rw [if_neg h]
      simp only [iff_true]
      tauto
  have hbuf : (a.width = .w16 ∨ (a.width = .w32 ∧ (a.offset.toNat % 4 ≠ 0 ∨ s.params.bufBytes < a.offset.toNat + 4)) ∨
      (a.width = .w8 ∧ s.params.bufBytes ≤ a.offset.toNat)) ↔ s.bufAccess? a = none := by
    unfold State.bufAccess?
    cases a.width <;> simp [bufWidth, State.inBuf] <;> omega
  rw [State.isViolation, hreg, hbuf]

/-- A command in flight stays in flight over a host access. -/
theorem State.hostAccess_inflight (s : State) (a : Access) (h : s.inflight.isSome) :
    (s.hostAccess a).inflight.isSome := by
  rcases State.hostAccess_cases s a with e | ⟨r, -, -, e⟩ | ⟨n, -, -, e⟩
  · rw [e]
    unfold State.violation
    split <;> simpa
  · rw [e]
    unfold State.regAccess
    split
    · cases r <;> simp only [State.writeReg, State.unlessBusy] <;> first | simpa | (split <;> simp [h])
    · simpa
  · rw [e]
    unfold State.bufAccess
    split
    · simp only [State.unlessBusy]
      split <;> simpa
    · simpa

@[simp] theorem State.hostAccess_schedule (s : State) (a : Access) : (s.hostAccess a).schedule = s.schedule :=
  (State.hostAccess_keeps s a).2.2.2.2.2.2.2.2.2.2

/-- The register at a register's own offset is that register (10_state.md R32). -/
@[simp] theorem regAt?_regOffset (r : Reg) : regAt? (regOffset r) = some r := by cases r <;> decide

theorem regOffset_aligned (r : Reg) : (regOffset r).toNat % 4 = 0 := by cases r <;> rfl

/-- A 32-bit access at a register's offset reaches that register. -/
theorem State.hostAccess_reg (s : State) (r : Reg) (w : Bool) (v : Word) :
    s.hostAccess { space := .reg, offset := regOffset r, width := .w32, write := w, wdata := v } =
      if w then s.writeReg r v else { s with rdata := s.readReg r } := by
  simp [State.hostAccess, Access.register?, regOffset_aligned, State.regAccess]

theorem register?_writeAccess (r : Reg) (v : Word) : (writeAccess (regOffset r) v).register? = some r := by
  simp [Access.register?, writeAccess, regOffset_aligned]

theorem State.hostAccess_writeAccess (s : State) (r : Reg) (v : Word) :
    s.hostAccess (writeAccess (regOffset r) v) = s.writeReg r v := State.hostAccess_reg s r true v

theorem State.hostAccess_readAccess (s : State) (r : Reg) :
    s.hostAccess (readAccess r) = { s with rdata := s.readReg r } := State.hostAccess_reg s r false 0

theorem State.write_ctrl (s : State) (v : Word) : s.hostAccess (writeAccess 0x008 v) = { s with ie := v.getLsbD 0 } :=
  State.hostAccess_reg s .ctrl true v

theorem State.write_status (s : State) (v : Word) :
    s.hostAccess (writeAccess 0x00C v) = { s with done := s.done && !v.getLsbD 1, pv := s.pv && !v.getLsbD 3 } :=
  State.hostAccess_reg s .status true v

theorem State.write_cmd (s : State) (v : Word) : s.hostAccess (writeAccess 0x010 v) = s.unlessBusy (s.accept v) :=
  State.hostAccess_reg s .cmd true v

/-! ## The engine and the schedule -/

theorem runWord_legal (w : Word) (i : Instr) (s : State) (hd : decode w = .ok i) : runWord w s = exec i s := by
  simp [runWord, hd]

theorem runWord_illegal (w : Word) (r : DecodeReject) (s : State) (hd : decode w = .error r) :
    runWord w s = .next (s.complete 8) := by
  simp [runWord, hd, raise_eq, ErrorKind.code]

theorem engineStep_inflight (s : State) (w : Word) (h : s.inflight = some w) : engineStep s = runWord w s := by
  simp [engineStep, h]

theorem engineStep_none (s : State) (h : s.inflight = none) : engineStep s = .next s := by
  simp [engineStep, h]

theorem engineStep_legal (s : State) (w : Word) (i : Instr) (h : s.inflight = some w) (hd : decode w = .ok i) :
    engineStep s = exec i s := by
  rw [engineStep_inflight s w h, runWord_legal w i s hd]

theorem engineStep_illegal (s : State) (w : Word) (r : DecodeReject) (h : s.inflight = some w)
    (hd : decode w = .error r) : engineStep s = .next (s.complete 8) := by
  rw [engineStep_inflight s w h, runWord_illegal w r s hd]

theorem step_nil (s : State) (h : s.schedule = []) : step s = engineStep s := by
  simp [step, machineStep, h]

theorem step_cons (s : State) (e : Event) (rest : List Event) (h : s.schedule = e :: rest) :
    step s = eventStep e (s.withSchedule rest) := by
  simp [step, machineStep, h]

/-! ## The host's moves, as next states -/

/-- A poll that reads DONE = 0 changes the bus data and puts an engine step and itself back in front. -/
theorem pollStep_waits (s : State) (h : s.done = false) :
    pollStep s = State.withSchedule { s with rdata := s.readReg .status } (.engine :: .poll :: s.schedule) := by
  have hd : (s.readReg .status).getLsbD 1 = false := by
    simp only [State.readReg, State.getLsbD_statusWord]
    simp [h]
  simp only [pollStep, State.hostAccess_readAccess, hd, Bool.false_eq_true, if_false]

@[simp] theorem printLoop_zero (dst : Word) : printLoop dst 0 = [] := rfl

/-- R306's loop begins with the index of chunk 0, then CHUNK_INFO and its poll. -/
theorem printLoop_succ (dst : Word) (n : Nat) : ∃ rest, printLoop dst (n + 1) =
    .access (writeAccess (regOffset .argIndex) 0) :: issue .chunkInfo :: .poll :: .stopOnError :: rest := by
  simp [printLoop, scriptEvents, List.range_succ_eq_map, printChunk, execChecked, ScriptLine.events, toReg]

end Sys2Proof.Machine
end

