-- ==== Sys2Proof/Tests/Slice0.lean ====
section
/-! SUPPORT. Tests. Every expected value is a vector of spec/95_test_vectors.md or is read off the rule named. -/

namespace Sys2Proof.Tests

open Sys2Proof.Machine

/-- A field of the next state of an outcome. -/
def after {α : Type} (o : Host.Outcome State Fault Refusal) (f : State → α) : Option α :=
  match o with
  | .next s => some (f s)
  | .fault _ => none
  | .refused _ => none

/-! ## Shared data (95_test_vectors.md section 0) -/

def ihdrData : List Byte := [0, 0, 0, 1, 0, 0, 0, 1, 8, 0, 0, 0, 0]
def idatData : List Byte := [0x78, 0xDA, 0x63, 0x60, 0, 0, 0, 2, 0, 1]
def hello : List Byte := [0x68, 0x65, 0x6C, 0x6C, 0x6F]

def chIhdr : List Byte :=
  [0, 0, 0, 0x0D, 0x49, 0x48, 0x44, 0x52, 0, 0, 0, 1, 0, 0, 0, 1, 8, 0, 0, 0, 0, 0x3A, 0x7E, 0x9B, 0x55]
def chIdat : List Byte :=
  [0, 0, 0, 0x0A, 0x49, 0x44, 0x41, 0x54, 0x78, 0xDA, 0x63, 0x60, 0, 0, 0, 2, 0, 1, 0xE5, 0x27, 0xDE, 0xFC]
def chIend : List Byte := [0, 0, 0, 0, 0x49, 0x45, 0x4E, 0x44, 0xAE, 0x42, 0x60, 0x82]
def chHello : List Byte :=
  [0, 0, 0, 5, 0x72, 0x75, 0x53, 0x74, 0x68, 0x65, 0x6C, 0x6C, 0x6F, 0xAE, 0x50, 0x8D, 0x6F]
def img : List Byte := [0x89, 0x50, 0x4E, 0x47, 0x0D, 0x0A, 0x1A, 0x0A] ++ chIhdr ++ chIdat ++ chIend

def ihdrChunk : Chunk := ⟨⟨0x49, 0x48, 0x44, 0x52⟩, ihdrData, 0x3A7E9B55⟩
def idatChunk : Chunk := ⟨⟨0x49, 0x44, 0x41, 0x54⟩, idatData, 0xE527DEFC⟩
def iendChunk : Chunk := ⟨⟨0x49, 0x45, 0x4E, 0x44⟩, [], 0xAE426082⟩

/-- The reset state with bytes written at an offset. -/
def bytesAt (a : Nat) (bs : List Byte) : State := State.reset.memWrite a bs

/-- V-P5's end state, as far as SEQ. -/
def parsed : State := { State.reset with seq := [ihdrChunk, idatChunk, iendChunk] }

/-! ## WellFormed: each check refuses an ill-formed term (30_encoding.md R119, 00_scope.md R7) -/

theorem test_legal_word : (CommandFields.mk 0x31 0 0).legal = true := by decide
theorem test_unlisted_opcode_refused : (CommandFields.mk 0x04 0 0).legal = false := by decide
theorem test_rsvd_refused : (CommandFields.mk 0x02 0 1).legal = false := by decide
theorem test_imm8_refused : (CommandFields.mk 0x10 0xFF 0).legal = false := by decide
theorem test_rc1_wellformed : Params.rc1.WF := by decide
theorem test_small_buffer_refused : ¬ Params.WF ⟨19, 16, 2048⟩ := by decide
theorem test_large_buffer_refused : ¬ Params.WF ⟨2 ^ 31, 16, 2048⟩ := by decide
theorem test_no_chunks_refused : ¬ Params.WF ⟨4096, 0, 2048⟩ := by decide
theorem test_many_chunks_refused : ¬ Params.WF ⟨4096, 2 ^ 32, 2048⟩ := by decide
theorem test_large_store_refused : ¬ Params.WF ⟨4096, 16, 2 ^ 32⟩ := by decide

/-! ## Decode: words written from R110 and R115 bit by bit (RSVD, IMM8, OPCODE) -/

theorem test_decode_control : decode 0b00000000000000000000000000000000 = .ok .nop := by decide
theorem test_decode_crc : decode 0b00000000000000000100100100000010 = .ok (.crcByte 0x49) ∧
    decode 0b00000000000000000000000000000001 = .ok .crcInit ∧
    decode 0b00000000000000000000000000000011 = .ok .crcBuf := by decide
theorem test_decode_type : decode 0b00000000000000000000000000010000 = .ok .typeCheck := by decide
theorem test_decode_chunk : decode 0b00000000000000000000000000100000 = .ok .chunkParse ∧
    decode 0b00000000000000000000000000100001 = .ok .chunkBuild := by decide
theorem test_decode_png : decode 0b00000000000000000000000000110000 = .ok .pngClear ∧
    decode 0b00000000000000000000000000110001 = .ok .pngParse ∧
    decode 0b00000000000000000000000000110010 = .ok .pngSerialize ∧
    decode 0b00000000000000000000000000110011 = .ok .pngFind ∧
    decode 0b00000000000000000000000000110100 = .ok .pngRemove ∧
    decode 0b00000000000000000000000000110101 = .ok .pngAppend ∧
    decode 0b00000000000000000000000000110110 = .ok .pngInsert ∧
    decode 0b00000000000000000000000000110111 = .ok .chunkInfo ∧
    decode 0b00000000000000000000000000111000 = .ok .chunkData := by decide
/-- V-X3 to V-X7, V-C15. -/
theorem test_decode_illegal : decode 0x00000004 = .error (.unlistedOpcode 0x04) ∧
    decode 0x000000FF = .error (.unlistedOpcode 0xFF) ∧
    decode 0x00000100 = .error (.immediateNonzero 1) ∧
    decode 0x00010000 = .error (.reservedNonzero 1) ∧
    decode 0x80000031 = .error (.reservedNonzero 0x8000) ∧
    decode 0x0000FF10 = .error (.immediateNonzero 0xFF) ∧
    decode 0x00010002 = .error (.reservedNonzero 1) := by decide
theorem test_table_word : decodeTableWord 32 0x00004E02 = some (.crcByte 0x4E) := by decide

/-! ## CRC32 unit (section 2.2) -/

theorem test_crc_check_value : crc32 [0x31, 0x32, 0x33, 0x34, 0x35, 0x36, 0x37, 0x38, 0x39] = 0xCBF43926 := by decide +kernel
/-- R174. -/
theorem test_crc_table : crcTable 0x01 = 0x77073096 ∧ crcTable 0x80 = 0xEDB88320 ∧ crcTable 0xFF = 0x2D02EF8D := by decide
/-- V-C2. -/
theorem test_crc_init :
    after (exec .crcInit { State.reset with crcState := 0x12345678 }) (·.readReg .crcResult) = some 0 := by decide
/-- V-C4, then V-C5. -/
theorem test_crc_byte : after (exec (.crcByte 0x49) State.reset) (·.crcState) = some 0x22FDE946 := by decide
theorem test_crc_byte_goes_on :
    after (exec (.crcByte 0x45) { State.reset with crcState := 0x22FDE946 }) (·.crcState) = some 0x992BAC53 := by decide
/-- R178's example. -/
theorem test_crc_buf :
    after (exec .crcBuf { bytesAt 0 [0x49, 0x45, 0x4E, 0x44] with argLen := 4 }) (·.readReg .crcResult)
      = some 0xAE426082 := by decide +kernel
/-- V-C14: no 32-bit wrap. -/
theorem test_crc_buf_range :
    after (exec .crcBuf { State.reset with argAddr := 0xFFFFFFFF, argLen := 2 }) (·.errcode) = some 9 := by decide

/-! ## TYPE_CHECK (section 2.1): V-T1, V-T3, V-T5, V-T8 -/

theorem test_type_check :
    after (exec .typeCheck { State.reset with argType := 0x52755374 }) (fun s => (s.typeFlags, s.statusWord))
      = some (0x00003D1F, 0x00000002) := by decide
theorem test_type_check_refused :
    after (exec .typeCheck { State.reset with argType := 0x52757374 }) (fun s => (s.typeFlags, s.statusWord))
      = some (0x0000091F, 0x00000006) := by decide
theorem test_type_flags_bounds : typeFlagsOf (ChunkType.ofWord 0x405B607B) = 0x00000B00 ∧
    typeFlagsOf (ChunkType.ofWord 0x31324034) = 0x00001C00 ∧
    typeFlagsOf (ChunkType.ofWord 0x415A5A61) = 0x00003F1F := by decide

/-! ## Chunk framer (section 2.3) -/

/-- V-K15. -/
theorem test_chunk_parse :
    after (exec .chunkParse { bytesAt 0 chHello with argLen := 17 })
      (fun s => (s.resLen, s.resType, s.resCrc, s.resOffset, s.errcode))
      = some (5, 0x72755374, 0xAE508D6F, 17, 0) := by decide +kernel
/-- V-K11, V-K9, V-K7, V-K13. -/
theorem test_parse_chunk_errors :
    parseChunk (chHello.set 8 0x69) = .error .invalidCrc ∧
    parseChunk [0, 0, 0, 0, 0x52, 0x75, 0x73, 0x74, 0x41, 0x00, 0x2D, 0x9E] = .error .invalidTypeByte ∧
    parseChunk (chHello.take 16) = .error .bufferTooShort ∧
    parseChunk [0, 0, 0, 0, 0x52, 0x75, 0x73, 0x74, 0x41, 0x00, 0x2D, 0x61] = .error .invalidCrc := by decide +kernel
/-- V-K21: source and destination overlap. -/
theorem test_chunk_build_overlap :
    after (exec .chunkBuild { bytesAt 0 hello with argLen := 5, argType := 0x72755374 })
      (fun s => (s.memRead 0 17, s.resOffset)) = some (chHello, 17) := by decide +kernel
/-- V-K19. -/
theorem test_chunk_build_range :
    after (exec .chunkBuild { bytesAt 0 hello with argLen := 5, argType := 0x72755374, argDst := 4080 })
      (fun s => (s.errcode, s.iobuf)) = some (9, (bytesAt 0 hello).iobuf) := by decide

/-! ## Png commands (section 2.4) -/

/-- V-P36. -/
theorem test_png_clear : after (exec .pngClear parsed) (fun s => (s.seq, s.readReg .storeUsed)) = some ([], 0) := by decide
/-- V-P5. -/
theorem test_png_parse :
    after (exec .pngParse { bytesAt 0 img with argLen := 67 }) (fun s => (s.seq, s.resIndex, s.resOffset))
      = some ([ihdrChunk, idatChunk, iendChunk], 3, 67) := by decide +kernel
/-- V-P15c: 13 + 10 > 22 at IDAT; SEQ is kept. -/
theorem test_png_parse_capacity :
    after (exec .pngParse { bytesAt 0 img with argLen := 67, params := ⟨4096, 16, 22⟩, seq := [iendChunk] })
      (fun s => (s.seq, s.errcode, s.resIndex, s.resOffset)) = some ([iendChunk], 10, 1, 33) := by decide +kernel
/-- V-P13c: exact fit. -/
theorem test_png_serialize :
    after (exec .pngSerialize { parsed with argDst := 4029 }) (fun s => (s.memRead 4029 67, s.resLen, s.resIndex))
      = some (img, 67, 3) := by decide
/-- V-P13b. -/
theorem test_png_serialize_range :
    after (exec .pngSerialize { parsed with argDst := 4030 }) (fun s => (s.iobuf, s.errcode)) = some ([], 9) := by decide
/-- V-P19. -/
theorem test_png_find :
    after (exec .pngFind { parsed with argType := 0x49444154 })
      (fun s => (s.resIndex, s.resLen, s.resCrc, s.resOffset)) = some (1, 10, 0xE527DEFC, 33) := by decide
/-- V-P23: the comparison is on raw bytes. -/
theorem test_png_find_case :
    after (exec .pngFind { parsed with argType := 0x69686472 }) (·.errcode) = some 6 := by decide
/-- V-P29. -/
theorem test_png_remove :
    after (exec .pngRemove { parsed with argType := 0x49484452 })
      (fun s => (s.seq, s.resIndex, s.resLen, s.readReg .storeUsed)) = some ([idatChunk, iendChunk], 0, 13, 10) := by decide
/-- R263: only the first match goes. -/
theorem test_png_remove_first :
    after (exec .pngRemove { State.reset with seq := [iendChunk, idatChunk, iendChunk], argType := 0x49454E44 })
      (·.seq) = some [idatChunk, iendChunk] := by decide
/-- R254's example, and V-P24's position. -/
theorem test_png_append :
    after (exec .pngAppend { State.reset with argType := 0x49454E44 }) (fun s => (s.seq, s.resIndex))
      = some ([iendChunk], 0) := by decide +kernel
theorem test_png_append_at_end :
    after (exec .pngAppend { parsed with argType := 0x72755374 }) (fun s => (s.resIndex, s.resCrc))
      = some (3, 0x74B6A602) := by decide +kernel
/-- V-P28's second half: before a final IEND. -/
theorem test_png_insert :
    after (exec .pngInsert { parsed with argType := 0x72755374, params := ⟨4096, 16, 23⟩ })
      (fun s => (s.seq, s.resIndex))
      = some ([ihdrChunk, idatChunk, ⟨⟨0x72, 0x75, 0x53, 0x74⟩, [], 0x74B6A602⟩, iendChunk], 2) := by decide +kernel
/-- V-P26: the range is checked before the type. -/
theorem test_png_insert_priority :
    after (exec .pngInsert { parsed with argAddr := 4096, argLen := 1 }) (·.errcode) = some 9 := by decide
/-- V-P30, index 1, and V-P31. -/
theorem test_chunk_info :
    after (exec .chunkInfo { parsed with argIndex := 1 })
      (fun s => (s.resLen, s.resType, s.resCrc, s.resOffset)) = some (10, 0x49444154, 0xE527DEFC, 33) := by decide
theorem test_chunk_info_range : after (exec .chunkInfo { parsed with argIndex := 3 }) (·.errcode) = some 9 := by decide
/-- V-P32 and V-P33. -/
theorem test_chunk_data :
    after (exec .chunkData { parsed with argIndex := 1, argDst := 4086 }) (fun s => (s.memRead 4086 10, s.resLen))
      = some (idatData, 10) := by decide
theorem test_chunk_data_range :
    after (exec .chunkData { parsed with argIndex := 1, argDst := 4087 }) (·.errcode) = some 9 := by decide

/-! ## NOP and the protocol (section 2.5) -/

/-- V-X9. -/
theorem test_nop : after (exec .nop { State.reset with errcode := 6 }) (·.statusWord) = some 0x00000002 := by decide

/-- A register write and read by name. -/
def wr (s : State) (r : Reg) (v : Word) : State := s.hostAccess (writeAccess (regOffset r) v)
def rd (s : State) (r : Reg) : Word := (s.hostAccess (readAccess r)).rdata
def bufAcc (off : Word) (w : Width) (write : Bool) (v : Word) : Access := bufferAccess off w write v

/-- V-X1. -/
theorem test_identification : rd State.reset .id = 0x504E4743 ∧ rd State.reset .version = 1 ∧
    rd State.reset .capBuf = 4096 ∧ rd State.reset .capChunks = 16 ∧ rd State.reset .capStore = 2048 := by decide
/-- Every register of R32 is reached at its own offset. -/
theorem test_register_map : allRegs.all (fun r => regAt? (regOffset r) == some r) = true := by decide
/-- V-X10: ERRCODE keeps 6 until the completion. -/
theorem test_accept : (wr { State.reset with errcode := 6, done := true } .cmd 0).statusWord = 0x00000005 := by decide
/-- V-X11: three writes lost while BUSY. -/
theorem test_busy_writes_lost :
    let s := wr { State.reset with argLen := 5 } .cmd 1
    let t := wr ((wr s .argLen 7).hostAccess (bufAcc 0 .w8 true 1)) .cmd 0
    t.statusWord = 0x00000009 ∧ t.argLen = 5 ∧ t.iobuf = [] ∧ t.lastcmd = 1 := by decide
/-- V-X12: CTRL while BUSY, then the completion raises IRQ. -/
theorem test_irq :
    after (engineStep (wr (wr State.reset .cmd 1) .ctrl 1)) (fun s => (s.statusWord, s.irq)) = some (2, true) := by decide
/-- V-X14, V-X15, V-X16, V-X17. -/
theorem test_register_violations :
    ([⟨.reg, 0x02C, .w32, false, 0⟩, ⟨.reg, 0x019, .w32, false, 0⟩, ⟨.reg, 0x018, .w16, false, 0⟩,
      ⟨.reg, 0x064, .w32, true, 1⟩] : List Access).all
      (fun a => State.reset.hostAccess a == { State.reset with pv := true }) = true := by decide
/-- V-X18. -/
theorem test_read_only_writes : wr (wr State.reset .resLen 5) .id 5 = State.reset := by decide
/-- V-X19: little-endian packing. -/
theorem test_buffer_word :
    let s := State.reset.hostAccess (bufAcc 0 .w32 true 0x44434241)
    s.iobuf = [(0, 0x41), (1, 0x42), (2, 0x43), (3, 0x44)] ∧
    (s.hostAccess (bufAcc 3 .w8 false 0)).rdata = 0x44 ∧
    (s.hostAccess (bufAcc 0 .w32 false 0)).rdata = 0x44434241 := by decide
/-- V-X20, V-X21, V-X22. -/
theorem test_buffer_violations :
    ([bufAcc 4096 .w8 true 1, bufAcc 2 .w32 true 1, bufAcc 0 .w16 true 1] : List Access).all
      (fun a => State.reset.hostAccess a == { State.reset with pv := true }) = true := by decide
/-- V-X24. -/
theorem test_reserved_fields : rd (wr State.reset .ctrl 0xFFFFFFFF) .ctrl = 1 ∧
    rd (wr { State.reset with done := true, pv := true } .status 0xFFFFFFFF) .status = 0 := by decide

/-! ## Steps and scripts -/

/-- V-X3: an illegal word completes with BadCommand. -/
theorem test_illegal_word_step :
    after (step (State.reset.withFetchWord 32 0x39)) (fun s => (s.statusWord, s.lastcmd)) = some (6, 0x39) := by decide
/-- A placed word runs as the next command. -/
theorem test_fetch_word :
    after (step (State.reset.withFetchWord 32 0x4902)) (fun s => (s.crcState, s.schedule)) = some (0x22FDE946, []) := by decide
/-- R337: a STATUS write that clears DONE and a completion in one cycle leave DONE = 1. -/
theorem test_coincide :
    after (coincideStep (writeAccess 0x00C 2) true (State.reset.accept 0)) (·.done) = some true := by decide
/-- R371: a reset abandons the command in flight. -/
theorem test_reset_abandons : resetStep none (State.reset.accept 0x31) = State.reset := by decide
/-- `exec CRC_BYTE, 0x49` (R121, R122). -/
theorem test_script_exec :
    scriptEvents [.exec (.crcByte 0x49)] = [.access ⟨.reg, 0x010, .w32, true, 0x00004902⟩, .poll] := by decide
/-- `wstr 100, "AZ"` and `clrsts` (R122). -/
theorem test_script_bytes :
    scriptEvents [.wstr 100 "AZ", .clrsts] =
      [.access ⟨.buf, 100, .w8, true, 0x41⟩, .access ⟨.buf, 101, .w8, true, 0x5A⟩,
       .access ⟨.reg, 0x00C, .w32, true, 0x0000000A⟩] := by decide

/-- R306: with two chunks in SEQ the host goes through the loop for `i` = 0 and 1, then on with the rest. -/
theorem test_print_loop :
    ((printStep 0x400 { parsed with seq := [idatChunk, iendChunk], schedule := [.engine] }).schedule.filterMap fun e =>
      match e with
      | .access a => if a.write then some (a.offset, a.wdata) else none
      | .engine => some (0, 0)
      | _ => none) =
    [(0x024, 0), (0x010, 0x37), (0x028, 0x400), (0x010, 0x38), (0x024, 1), (0x010, 0x37), (0x028, 0x400), (0x010, 0x38),
     (0, 0)] := by decide
/-- R306: an image of no chunks prints none. -/
theorem test_print_nothing : (printStep 0 State.reset).schedule = [] := by decide

/-! ## Witnesses: states and operands that meet the hypotheses of each statement, one per clause at a boundary -/

/-- A field of a next state, read off an evaluation. -/
theorem next_of_after {α : Type} {o : Host.Outcome State Fault Refusal} {f : State → α} {v : α}
    (h : after o f = some v) : ∃ t, o = .next t ∧ f t = v := by
  cases o with
  | next s => exact ⟨s, rfl, by simpa [after] using h⟩
  | fault r => cases h
  | refused r => cases h

theorem not_legal {w : Word} {r : DecodeReject} (h : decode w = .error r) : ¬ ∃ i, decode w = .ok i := by
  rintro ⟨i, hi⟩
  rw [h] at hi
  cases hi

/-- A state in the middle of a run: the image is loaded, bytes are written, PNG_CLEAR is in flight. -/
def busyState : State :=
  { parsed.accept 0x30 with iobuf := [(0, 0x68), (4095, 0x6F)], errcode := 0x0A, typeFlags := 0x3D1F, pv := true }

def ruStChunk : Chunk := ⟨⟨0x72, 0x75, 0x53, 0x74⟩, hello, 0xAE508D6F⟩

theorem wf_iend : iendChunk.WF := ⟨by decide +kernel, by decide, by decide⟩
theorem wf_ruSt : ruStChunk.WF := ⟨by decide +kernel, by decide, by decide⟩
theorem wf_parsed : ∀ c ∈ parsed.seq, c.WF := by
  intro c hc
  simp only [parsed, List.mem_cons, List.not_mem_nil, or_false] at hc
  rcases hc with rfl | rfl | rfl
  · exact ⟨by decide +kernel, by decide, by decide⟩
  · exact ⟨by decide +kernel, by decide, by decide⟩
  · exact wf_iend

theorem inv_busyState : busyState.Inv where
  params := by decide
  memWF := by decide
  memBound a h := by
    have : 4096 ≤ a := h
    simp only [busyState, Memory.get?]
    rw [if_neg (by omega), if_neg (by omega)]
  seqWF := wf_parsed
  seqCount := by decide
  seqStore := by decide
  busyIff := by decide
  inflight w h := by cases h; rfl
  notDone _ := rfl
  errcode := by decide
  typeFlags := by decide

theorem witness_DecodeAndEncodeAgree : decode 0xFF02 = .ok (.crcByte 0xFF) := by decide
theorem witness_LegalWordsAndBadCommand :
    State.reset.busy = false ∧ (¬ ∃ i, decode 0x39 = .ok i) ∧ (¬ ∃ i, decode 0x100 = .ok i) ∧
    ¬ ∃ i, decode 0x10002 = .ok i :=
  ⟨rfl, not_legal (r := .unlistedOpcode 0x39) (by decide), not_legal (r := .immediateNonzero 1) (by decide),
    not_legal (r := .reservedNonzero 1) (by decide)⟩
theorem witness_StepRunsDecodedCommand :
    busyState.inflight = some 0x30 ∧ decode 0x30 = .ok .pngClear ∧ busyState.schedule = [] ∧
    (busyState.withSchedule [.engine, .poll]).schedule = .engine :: [.poll] := by decide
theorem witness_StepPerformsHostAccess :
    (State.reset.withSchedule [.access (readAccess .id)]).schedule = .access (readAccess .id) :: [] ∧
    State.reset.schedule = [] ∧ State.reset.inflight = none := by decide
theorem witness_StepKeepsInvariant : busyState.Inv ∧ ∃ t, step busyState = .next t ∧ t.seq = [] :=
  ⟨inv_busyState, next_of_after (by decide)⟩
/-- The bounds of R7. -/
theorem witness_ResetMeetsInvariant : Params.WF ⟨20, 1, 0⟩ ∧ Params.WF ⟨2 ^ 31 - 1, 2 ^ 32 - 1, 2 ^ 32 - 1⟩ := by decide
theorem witness_ResetRestoresResetState :
    (busyState.withSchedule [.reset (some (readAccess .id)), .poll]).schedule
      = .reset (some (readAccess .id)) :: [.poll] ∧ (readAccess .id).write = false := by decide
/-- A schedule on which the completion comes later, with every other kind of host move before it. -/
theorem witness_AcceptedCommandCompletes :
    let s := busyState.withSchedule [.access (writeAccess 0x018 1), .forward 0x018, .printChunks 0, .poll]
    s.inflight = some 0x30 ∧ s.busy = true ∧ s.done = false ∧ ∀ a, Event.reset a ∉ s.schedule :=
  ⟨by decide, by decide, by decide, fun a h => by simp [State.withSchedule] at h⟩
theorem witness_CoincidingCompletionIsSecond :
    busyState.inflight = some 0x30 ∧ (0x00000002 : Word).getLsbD 1 = true := by decide
/-- The hole of R32's map, the first offset past it and the last one below 0x1000. -/
theorem witness_UnlistedOffsetIsViolation :
    ∀ off ∈ ([0x02C, 0x064, 0xFFC] : List Word), off.toNat % 4 = 0 ∧ off.toNat < 0x1000 ∧ ∀ r, regOffset r ≠ off := by
  intro off h
  simp only [List.mem_cons, List.not_mem_nil, or_false] at h
  rcases h with rfl | rfl | rfl <;>
    exact ⟨by decide, by decide, fun r => by cases r <;> decide⟩
theorem witness_NarrowOrMisalignedRegisterAccessIsViolation :
    (Access.mk .reg 0x018 .w16 true 1).width ≠ .w32 ∧ (Access.mk .reg 0x018 .w8 true 1).width ≠ .w32 ∧
    (Access.mk .reg 0x019 .w32 true 1).offset.toNat % 4 ≠ 0 := by decide
theorem witness_ArgumentWriteIsReadBack : State.reset.busy = false ∧ Reg.argDst ∈ [Reg.argAddr, .argDst] ∧ Reg.cmd ≠ .argDst := by
  decide
theorem witness_AcceptanceOfCommandWord : parsed.busy = false ∧ decode 0x4902 = .ok (.crcByte 0x49) := by decide
theorem witness_BusyWriteIsLost : busyState.busy = true := by decide
theorem witness_BusyReadsShowOldValues :
    busyState.Inv ∧ busyState.busy = true ∧ (4095#32).toNat < busyState.params.bufBytes ∧ Reg.errcode ≠ .status ∧
    Reg.errcode ≠ .cmd ∧ (4092#32).toNat % 4 = 0 ∧ (4092#32).toNat + 4 ≤ busyState.params.bufBytes := ⟨inv_busyState, by decide⟩
/-- The last word, the bytes beside it, the last byte, and the first offset of each violating form. -/
theorem witness_BufferAccessesAreLittleEndian :
    State.reset.busy = false ∧ (4092#32).toNat % 4 = 0 ∧ (4092#32).toNat + 4 ≤ State.reset.params.bufBytes ∧
    4091 < (4092#32).toNat ∧ (4092#32).toNat + 4 ≤ 4096 ∧ (4095#32).toNat < State.reset.params.bufBytes ∧
    State.reset.params.bufBytes ≤ (4096#32).toNat ∧ State.reset.params.bufBytes < (4096#32).toNat + 4 ∧
    (4094#32).toNat % 4 ≠ 0 ∧ Memory.get? (bytesAt 4092 [1, 2, 3, 4]).iobuf ((4092#32).toNat + 3) = some 4 ∧
    Memory.get? (bytesAt 4092 [1, 2, 3, 4]).iobuf (4095#32).toNat = some 4 := by decide
theorem witness_MixedWidthsSeeTheSameBytes :
    State.reset.busy = false ∧ (4095#32).toNat - (4095#32).toNat % 4 + 4 ≤ State.reset.params.bufBytes ∧
    (4092#32).toNat % 4 = 0 ∧ (4092#32).toNat + 4 ≤ State.reset.params.bufBytes := by decide
/-- A violation of each kind at the edge of its range, and the legal reads beside them. -/
theorem witness_ReadsHaveNoSideEffect :
    (readAccess .capStore).write = false ∧
    (∀ a ∈ ([⟨.reg, 0x064, .w32, false, 0⟩, ⟨.reg, 0x062, .w32, false, 0⟩, ⟨.reg, 0x060, .w16, false, 0⟩,
        ⟨.buf, 4096, .w8, false, 0⟩, ⟨.buf, 4094, .w32, false, 0⟩, ⟨.buf, 4096, .w32, false, 0⟩,
        ⟨.buf, 0, .w16, false, 0⟩] : List Access), State.reset.isViolation a) ∧
    (∀ a ∈ ([⟨.reg, 0x060, .w32, false, 0⟩, ⟨.buf, 4095, .w8, false, 0⟩, ⟨.buf, 4092, .w32, false, 0⟩] : List Access),
      ¬ State.reset.isViolation a) := by
  refine ⟨rfl, fun a h => ?_, fun a h => ?_⟩ <;> simp only [List.mem_cons, List.not_mem_nil, or_false] at h
  · rcases h with rfl | rfl | rfl | rfl | rfl | rfl | rfl
    · exact .inl ⟨rfl, .inr (.inr fun r => by cases r <;> decide)⟩
    · exact .inl ⟨rfl, .inr (.inl (by decide))⟩
    · exact .inl ⟨rfl, .inl (by decide)⟩
    · exact .inr ⟨rfl, .inr (.inr ⟨rfl, by decide⟩)⟩
    · exact .inr ⟨rfl, .inr (.inl ⟨rfl, .inl (by decide)⟩)⟩
    · exact .inr ⟨rfl, .inr (.inl ⟨rfl, .inr (by decide)⟩)⟩
    · exact .inr ⟨rfl, .inl rfl⟩
  · rcases h with rfl | rfl | rfl
    · rintro (⟨-, h | h | h⟩ | ⟨h, -⟩)
      · exact h rfl
      · exact h (by decide)
      · exact h .capStore rfl
      · cases h
    · rintro (⟨h, -⟩ | ⟨-, h | h | h⟩)
      · cases h
      · cases h
      · cases h.1
      · exact absurd h.2 (by decide)
    · rintro (⟨h, -⟩ | ⟨-, h | ⟨-, h | h⟩ | h⟩)
      · cases h
      · cases h
      · exact h (by decide)
      · exact absurd h (by decide)
      · cases h.1
theorem witness_CountAndCapacityRegistersFit : busyState.Inv ∧ busyState.readReg .nchunks = 3 :=
  ⟨inv_busyState, by decide⟩
theorem witness_CommandRegisterFrame :
    (∃ t, exec (.crcByte 0x49) parsed = .next t ∧ t.crcState = 0x22FDE946) ∧ Reg.resLen ∉ writtenRegs (.crcByte 0x49) :=
  ⟨next_of_after (by decide), by decide⟩
/-- A command that stores nothing, and one that stores at the end of the buffer. -/
theorem witness_CommandBufferFrame :
    storedRange .pngClear parsed = none ∧ (∃ t, exec .pngClear parsed = .next t ∧ t.seq = []) ∧
    storedRange .pngSerialize { parsed with argDst := 4029 } = some (4029, 67) ∧
    (∃ t, exec .pngSerialize { parsed with argDst := 4029 } = .next t ∧ t.errcode = 0) ∧
    4028 < 4029 ∧ 4029 + 67 ≤ 4096 :=
  ⟨rfl, next_of_after (by decide), by decide, next_of_after (by decide), by decide, by decide⟩
theorem witness_OnlyTheirCommandsWriteSeqAndCrcAndFlags :
    editsSeq .typeCheck = false ∧ usesCrcUnit .typeCheck = false ∧ Instr.nop ≠ .typeCheck ∧
    (∃ t, exec .typeCheck parsed = .next t ∧ t.errcode = 4) ∧ ∃ t, exec .nop parsed = .next t ∧ t.errcode = 0 :=
  ⟨rfl, rfl, by decide, next_of_after (by decide), next_of_after (by decide)⟩
theorem witness_ErrorsArePrecise :
    (∃ t, exec .pngFind parsed = .next t ∧ t.errcode = 6) ∧ Reg.resIndex ∉ writtenOnError .pngFind ∧
    (parsed.accept 0x39).inflight = some 0x39 ∧ ¬ ∃ i, decode 0x39 = .ok i :=
  ⟨next_of_after (by decide), by decide, rfl, not_legal (r := .unlistedOpcode 0x39) (by decide)⟩
theorem witness_CommandsReportTheirOwnErrors : ∃ t, exec .chunkInfo State.reset = .next t ∧ t.errcode = 9 :=
  next_of_after (by decide)
theorem witness_FramerIgnoresCrcState :
    usesCrcUnit .chunkInfo = false ∧ ∃ t, exec .chunkInfo parsed = .next t ∧ t.resLen = 13 :=
  ⟨rfl, next_of_after (by decide)⟩
/-- A removal, and a PNG_PARSE that fails. -/
theorem witness_RelativeOrderIsKept :
    (∃ t, exec .pngRemove { parsed with argType := 0x49484452 } = .next t ∧ t.seq = [idatChunk, iendChunk]) ∧
    ∃ t, exec .pngParse { parsed with argLen := 8, iobuf := (bytesAt 0 hello).iobuf } = .next t ∧ t.errcode = 1 :=
  ⟨next_of_after (by decide), next_of_after (by decide)⟩
/-- A range that ends at the end of the buffer, and one byte more. -/
theorem witness_CrcBufFeedsTheRange :
    (4092#32).toNat + (4#32).toNat ≤ State.reset.params.bufBytes ∧
    State.reset.params.bufBytes < (4092#32).toNat + (5#32).toNat := by decide

/-- Nothing is fed by a failed CRC_BUF, a NOP and a host access; "IE" is fed by a byte, then by the buffer. -/
def feedStart : State := { bytesAt 0 [0x45] with argLen := 1, ie := true }

/-- The next state, where there is one. -/
def run1 (i : Instr) (s : State) : State :=
  match exec i s with
  | .next t => t
  | .fault _ => s
  | .refused _ => s

def fed1 : State := run1 .nop (run1 (.crcByte 0x49) (run1 .crcInit feedStart))
def fed2 : State := (run1 .crcBuf fed1).hostAccess (writeAccess (regOffset .argLen) 0xFFFFFFFF)

theorem witness_CrcStreamingLaw :
    ∃ t u, exec .crcInit feedStart = .next t ∧ Feeds [0x49, 0x45] t u ∧ u.errcode = 9 := by
  have hs : fed1.sourceBytes = [0x45] := by decide
  have h1 : exec .crcBuf fed1 = .next (run1 .crcBuf fed1) := rfl
  have h2 : exec .crcBuf fed2 = .next (run1 .crcBuf fed2) := rfl
  have tail : Feeds (fed1.sourceBytes ++ []) fed1 (run1 .crcBuf fed2) :=
    .buf h1 (by decide) (.host (.failed h2 (by decide) (.none _)))
  rw [hs] at tail
  exact ⟨run1 .crcInit feedStart, _, rfl, .byte rfl (.other (i := .nop) rfl rfl tail), by decide⟩

theorem witness_ConstructiblePredicatesAreLetterCase :
    (ChunkType.ofWord 0x72755374).constructible = true ∧ (ChunkType.ofWord 0x415A5A61).constructible = true ∧
    isLetter 0x5A = true ∧ isLetter 0x61 = true := by decide
theorem witness_ControlAndStatusWritesAlwaysTake : readOnlyReg .id = true ∧ readOnlyReg .capStore = true := by decide

/-! ### Chunk framer -/

/-- A chunk that ends at the end of the buffer, with two bytes after it. -/
theorem witness_ChunkParseReportsTheChunk :
    ruStChunk.WF ∧ (4077#32).toNat + (19#32).toNat ≤ (bytesAt 4077 (chHello ++ [1, 2])).params.bufBytes ∧
    (bytesAt 4077 (chHello ++ [1, 2])).memRead (4077#32).toNat (19#32).toNat = serChunk ruStChunk ++ [1, 2] :=
  ⟨wf_ruSt, by decide, by decide⟩
/-- One state per clause: a range one byte too long, 11 bytes, a length field one too large, a wrong CRC, a bad type. -/
theorem witness_ChunkParseErrorsInOrder :
    State.reset.params.bufBytes < (4085#32).toNat + (12#32).toNat ∧ (11#32).toNat < 12 ∧
    (17#32).toNat < 12 + (be32 [0, 0, 0, 6]).toNat ∧ 12 + (be32 (chHello.take 4)).toNat ≤ (17#32).toNat ∧
    be32 [0xAE, 0x50, 0x8D, 0x70] ≠ crc32 ([0x72, 0x75, 0x53, 0x74] ++ hello) ∧
    be32 [0x41, 0x00, 0x2D, 0x9E] = crc32 [0x52, 0x75, 0x73, 0x74] ∧
    (ChunkType.mk 0x52 0x75 0x73 0x74).constructible = false := by decide +kernel
/-- A destination that ends at the end of the buffer, one that does not fit, and a type that is not constructible. -/
theorem witness_ChunkBuildStoresTheChunk :
    (0#32).toNat + (5#32).toNat ≤ State.reset.params.bufBytes ∧
    (4079#32).toNat + 12 + (5#32).toNat ≤ State.reset.params.bufBytes ∧
    ¬ (4080#32).toNat + 12 + (5#32).toNat ≤ State.reset.params.bufBytes ∧
    (ChunkType.ofWord 0x72755374).constructible = true ∧ (ChunkType.ofWord 0x72757374).constructible = false := by decide
theorem witness_ChunkSelfConsistency :
    ruStChunk.WF ∧ (bytesAt 0 hello).params.WF ∧
    ∃ t, exec .chunkBuild { bytesAt 0 hello with argLen := 5, argType := 0x72755374 } = .next t ∧ t.errcode = 0 :=
  ⟨wf_ruSt, by decide, next_of_after (by decide +kernel)⟩
/-- V-K11 changes the first data byte; here the last. -/
theorem witness_CorruptedDataByteIsInvalidCrc :
    ruStChunk.WF ∧ 4 < ruStChunk.data.length ∧ ruStChunk.data[4]? ≠ some 0x70 := ⟨wf_ruSt, by decide, by decide⟩

/-! ### The chunk sequence -/

/-- The image at the end of the buffer, with capacities it fills exactly. -/
theorem witness_PngParseLoadsTheImage :
    (∀ c ∈ parsed.seq, c.WF) ∧ parsed.seq.length ≤ 3 ∧ dataBytes parsed.seq ≤ 23 ∧
    (4029#32).toNat + (67#32).toNat ≤ (bytesAt 4029 img).params.bufBytes ∧
    (bytesAt 4029 img).memRead (4029#32).toNat (67#32).toNat = serPng parsed.seq :=
  ⟨wf_parsed, by decide, by decide, by decide, by decide⟩
/-- A range one byte too long, a bad signature, an image cut in its last chunk, and a fourth chunk past each capacity. -/
theorem witness_PngParseReportsWhereItFailed :
    State.reset.params.bufBytes < (4029#32).toNat + (68#32).toNat ∧ chIhdr.take 8 ≠ pngSignature ∧
    (∀ c ∈ parsed.seq, c.WF) ∧ img ++ [0] = serPng parsed.seq ++ [0] ∧ parseChunk [0] = .error .bufferTooShort ∧
    img ++ chHello = serPng parsed.seq ++ chHello ∧ parseChunk chHello = .ok (ruStChunk, 17) ∧
    3 < parsed.seq.length + 1 ∧ 27 < dataBytes parsed.seq + ruStChunk.data.length :=
  ⟨by decide, by decide, wf_parsed, by decide, by decide, by decide, by decide +kernel, by decide, by decide⟩
theorem witness_PngRoundTrip :
    parsePng Params.rc1 img = .ok parsed.seq ∧
    (∃ t, exec .pngParse { bytesAt 0 img with argLen := 67 } = .next t ∧ (t.errcode, t.seq) = (0, parsed.seq)) ∧
    (4029#32).toNat + (67#32).toNat ≤ State.reset.params.bufBytes :=
  ⟨by decide +kernel, next_of_after (by decide +kernel), by decide⟩
theorem witness_PngSerializeStoresTheImage :
    (4029#32).toNat + (serPng parsed.seq).length ≤ State.reset.params.bufBytes ∧
    State.reset.params.bufBytes < (4030#32).toNat + (serPng parsed.seq).length := by decide
/-- The last record, with the others before it; and a type SEQ does not hold. -/
theorem witness_PngFindReportsTheFirstMatch :
    parsed.seq = [ihdrChunk, idatChunk] ++ iendChunk :: [] ∧ iendChunk.type.bytes = be32Bytes 0x49454E44 ∧
    (∀ d ∈ [ihdrChunk, idatChunk], d.type.bytes ≠ be32Bytes 0x49454E44) ∧
    ∀ d ∈ parsed.seq, d.type.bytes ≠ be32Bytes 0x69656E64 := by decide
/-- The first record of two of its type; and a type SEQ does not hold. -/
theorem witness_PngRemoveTakesTheFirstMatchOut :
    [iendChunk, idatChunk, iendChunk] = [] ++ iendChunk :: [idatChunk, iendChunk] ∧
    iendChunk.type.bytes = be32Bytes 0x49454E44 ∧ (∀ d ∈ ([] : List Chunk), d.type.bytes ≠ be32Bytes 0x49454E44) ∧
    ∀ d ∈ parsed.seq, d.type.bytes ≠ be32Bytes 0x69656E64 := by decide
theorem witness_RemovedTypeIsNotFound :
    (parsed.seq.filter fun c => c.type = ChunkType.ofWord 0x49444154).length = 1 := by decide
/-- Ranges, types and capacities on both sides of their bounds: one more chunk of 5 bytes fills 4 chunks and 28 bytes. -/
theorem witness_PngAppendAddsAtTheEnd :
    (4091#32).toNat + (5#32).toNat ≤ State.reset.params.bufBytes ∧
    ¬ (4092#32).toNat + (5#32).toNat ≤ State.reset.params.bufBytes ∧
    (ChunkType.ofWord 0x72755374).constructible = true ∧ (ChunkType.ofWord 0x72757374).constructible = false ∧
    (parsed.seq.length + 1 ≤ 4 ∧ dataBytes parsed.seq + (5#32).toNat ≤ 28) ∧
    ¬ parsed.seq.length + 1 ≤ 3 ∧ ¬ dataBytes parsed.seq + (5#32).toNat ≤ 27 := by decide
/-- The same bounds; a list that ends with IEND, one that does not, and the empty list. -/
theorem witness_PngInsertAddsBeforeFinalIend :
    parsed.seq = [ihdrChunk, idatChunk] ++ [iendChunk] ∧ iendChunk.type.bytes = [0x49, 0x45, 0x4E, 0x44] ∧
    [iendChunk, idatChunk] = [iendChunk] ++ [idatChunk] ∧ idatChunk.type.bytes ≠ [0x49, 0x45, 0x4E, 0x44] ∧
    (∀ (pre : List Chunk) (e : Chunk), State.reset.seq ≠ pre ++ [e]) ∧
    (parsed.seq.length + 1 ≤ 4 ∧ dataBytes parsed.seq + (5#32).toNat ≤ 28) ∧ ¬ parsed.seq.length + 1 ≤ 3 := by
  refine ⟨by decide, by decide, by decide, by decide, fun pre e h => ?_, by decide, by decide⟩
  exact List.append_ne_nil_of_right_ne_nil pre (by simp) h.symm
/-- The last record, and the first index past it. -/
theorem witness_ChunkInfoReportsTheRecord :
    parsed.seq = [ihdrChunk, idatChunk] ++ iendChunk :: [] ∧ (2#32).toNat = [ihdrChunk, idatChunk].length ∧
    parsed.seq.length ≤ (3#32).toNat := by decide
theorem witness_ChunkDataStoresTheData :
    parsed.seq[(1#32).toNat]? = some idatChunk ∧ (4086#32).toNat + idatChunk.data.length ≤ State.reset.params.bufBytes ∧
    parsed.seq.length ≤ (3#32).toNat ∧ State.reset.params.bufBytes < (4087#32).toNat + idatChunk.data.length := by decide

end Sys2Proof.Tests
end

section
/-! The reset state and the invariant (00_scope.md R7, 10_state.md R65). -/

namespace Sys2Proof.Machine

/-- R7 allows the reference configuration. -/
theorem Params.rc1_wf : Params.rc1.WF := by decide

/-- Of the invariant's clauses only the bounds of the parameters are not the reset values' own: SEQ and IOBUF are empty,
so the capacities and the buffer's extent hold of any parameters, and no command is in flight. -/
theorem State.resetWith_inv (p : Params) (hp : p.WF) : (State.resetWith p).Inv where
  params := hp
  memWF := Memory.wf_resetWith p
  memBound a _ := Memory.get?_nil a
  seqWF c hc := absurd hc List.not_mem_nil
  seqCount := Nat.zero_le _
  seqStore := Nat.zero_le _
  busyIff := rfl
  inflight w hw := by simp at hw
  notDone _ := State.resetWith_done p
  errcode := by simp
  typeFlags := by simp

/-- Settles O8: `State.reset` is the case of RC1 (log 1). -/
theorem resetMeetsInvariant : Obligations.ResetMeetsInvariant :=
  ⟨State.resetWith_inv Params.rc1 Params.rc1_wf, State.resetWith_inv⟩

end Sys2Proof.Machine
end

section
/-! Every step keeps the invariant (10_state.md R57, R58, R63, R65): first what each operation of the state keeps, then
host accesses, commands and events. A statement `∃ t, … = .next t ∧ t.Inv` names the next state and says it is good. -/

namespace Sys2Proof.Machine

/-! ## The operations of the state -/

/-- The invariant speaks of nine fields: a state that agrees on them has it too. -/
theorem State.Inv.of_eq {s t : State} (h : s.Inv) (hparams : t.params = s.params := by rfl)
    (hiobuf : t.iobuf = s.iobuf := by rfl) (hseq : t.seq = s.seq := by rfl) (hbusy : t.busy = s.busy := by rfl)
    (hinflight : t.inflight = s.inflight := by rfl) (hlastcmd : t.lastcmd = s.lastcmd := by rfl)
    (hdone : t.done = s.done := by rfl) (herrcode : t.errcode = s.errcode := by rfl)
    (hflags : t.typeFlags = s.typeFlags := by rfl) : t.Inv := by
  obtain ⟨params, memWF, memBound, seqWF, seqCount, seqStore, busyIff, inflight, notDone, errcode, typeFlags⟩ := h
  constructor <;> simpa only [hparams, hiobuf, hseq, hbusy, hinflight, hlastcmd, hdone, herrcode, hflags]

/-- Completion empties INFLIGHT and clears BUSY, so only the code is left to check (60_exceptions.md R330, R334). -/
theorem State.Inv.complete {s : State} (h : s.Inv) {code : BitVec 8}
    (hcode : code.toNat ∈ [0, 1, 2, 3, 4, 6, 8, 9, 10]) : (s.complete code).Inv :=
  { h with busyIff := rfl, inflight := nofun, notDone := nofun, errcode := hcode }

/-- Acceptance sets BUSY, INFLIGHT and the CMD read-back together and clears DONE (70_reset_and_hazards.md R380). -/
theorem State.Inv.accept {s : State} (h : s.Inv) (w : Word) : (s.accept w).Inv :=
  { h with busyIff := rfl, inflight := fun _ hw => Option.some.inj hw, notDone := fun _ => rfl }

/-- A write inside the buffer writes no offset outside it (20_memory.md R82). -/
theorem State.Inv.memWrite {s : State} (h : s.Inv) (a : Nat) (bs : List Byte)
    (hin : a + bs.length ≤ s.params.bufBytes) : (s.memWrite a bs).Inv :=
  { h with
    memWF := Memory.wf_setBytes s.iobuf a bs h.memWF
    memBound := fun k hk =>
      (Memory.get?_setBytes_outside s.iobuf a k bs (.inr (Nat.le_trans hin hk))).trans (h.memBound k hk) }

/-- Another chunk list of well-formed records within the capacities (R57, R58). -/
theorem State.Inv.withSeq {s : State} (h : s.Inv) (q : List Chunk) (hwf : ∀ c ∈ q, c.WF)
    (hcount : q.length ≤ s.params.maxChunks) (hstore : dataBytes q ≤ s.params.storeBytes) :
    State.Inv { s with seq := q } :=
  { h with seqWF := hwf, seqCount := hcount, seqStore := hstore }

/-- TYPE_FLAGS of any type is 0 in bits 7:5 and 31:14, the bits the mask keeps (R53). -/
theorem typeFlagsOf_reserved (t : ChunkType) : typeFlagsOf t &&& 0xFFFFC0E0 = 0 := by
  have mask : ∀ i < 32, (0xFFFFC0E0#32).getLsbD i = true → i = 5 ∨ i = 6 ∨ i = 7 ∨ 14 ≤ i := by decide
  refine BitVec.eq_of_getLsbD_eq fun i hi => ?_
  simp only [BitVec.getLsbD_and, BitVec.ofNat_eq_ofNat, BitVec.getLsbD_zero, Bool.and_eq_false_iff]
  by_cases hbit : (0xFFFFC0E0#32).getLsbD i = true
  · have := mask i hi hbit
    left
    rw [getLsbD_typeFlagsOf]
    repeat rw [if_neg (by omega)]
  · exact .inr (Bool.eq_false_iff.mpr hbit)

theorem State.Inv.typeChecked {s : State} (h : s.Inv) : s.typeChecked.Inv :=
  { h with typeFlags := typeFlagsOf_reserved _ }

/-- A reset gives the reset registers in the same parameters (70_reset_and_hazards.md R370). -/
theorem State.Inv.resetBlock {s : State} (h : s.Inv) : s.resetBlock.Inv :=
  (State.resetWith_inv s.params h.params).of_eq

theorem State.Inv.unlessBusy {s t : State} (hs : s.Inv) (ht : t.Inv) : (s.unlessBusy t).Inv := by
  unfold State.unlessBusy
  split
  · exact hs.of_eq
  · exact ht

/-! ## Host accesses -/

theorem State.Inv.violation {s : State} (h : s.Inv) (write : Bool) : (s.violation write).Inv := by
  cases write with
  | true => exact h.of_eq
  | false => exact h.of_eq

/-- A register write keeps the invariant: only a CMD write starts a command, and a STATUS write can only clear DONE. -/
theorem State.Inv.writeReg {s : State} (h : s.Inv) (r : Reg) (v : Word) : (s.writeReg r v).Inv := by
  cases r with
  | ctrl => exact h.of_eq
  | status => exact { h with notDone := fun hb => by simp [State.writeReg, h.notDone hb] }
  | cmd => exact h.unlessBusy (h.accept v)
  | argAddr | argLen | argType | argIndex | argDst => exact h.unlessBusy h.of_eq
  | id | version | errcode | resLen | resType | resCrc | resIndex | resOffset | crcState | crcResult | typeFlags
  | nchunks | storeUsed | capBuf | capChunks | capStore => exact h

theorem length_littleEndianBytes_le (v : Word) (n : Nat) : (littleEndianBytes v n).length ≤ n :=
  List.length_take_le _ _

/-- One host access keeps the invariant, whatever it is (20_memory.md R80). -/
theorem State.Inv.hostAccess {s : State} (h : s.Inv) (a : Access) : (s.hostAccess a).Inv := by
  rcases State.hostAccess_cases s a with e | ⟨r, -, -, e⟩ | ⟨n, -, hn, e⟩
  · exact e ▸ h.violation a.write
  · rw [e]
    unfold State.regAccess
    split
    · exact h.writeReg r a.wdata
    · exact h.of_eq
  · rw [e]
    unfold State.bufAccess
    split
    · obtain ⟨-, -, hin⟩ := State.bufAccess?_inside s a n hn
      exact h.unlessBusy (h.memWrite _ _
        (Nat.le_trans (Nat.add_le_add_left (length_littleEndianBytes_le a.wdata n) _) hin))
    · exact h.of_eq

/-! ## Commands -/

theorem State.Inv.bufBytes_le {s : State} (h : s.Inv) : s.params.bufBytes ≤ 2 ^ 31 - 1 := by
  obtain ⟨⟨-, hbuf⟩, -⟩ := h.params
  exact hbuf

theorem State.sourceInBuf_iff (s : State) :
    s.sourceInBuf = true ↔ s.argAddr.toNat + s.argLen.toNat ≤ s.params.bufBytes :=
  State.inBuf_iff s _ _

@[simp] theorem State.length_sourceBytes (s : State) : s.sourceBytes.length = s.argLen.toNat :=
  State.length_memRead s _ _

/-- A source range inside the buffer is short enough to be a record's data (R57). -/
theorem State.Inv.sourceBytes_length_le {s : State} (h : s.Inv) (hin : s.sourceInBuf = true) :
    s.sourceBytes.length ≤ 2 ^ 31 - 1 := by
  have := h.bufBytes_le
  rw [State.sourceInBuf_iff] at hin
  rw [State.length_sourceBytes]
  omega

/-- A constructed record is well formed when its data is no longer than R57 allows. -/
theorem Chunk.wf_of_mkChunk {t : ChunkType} {d : List Byte} {c : Chunk} (h : mkChunk t d = .ok c)
    (hd : d.length ≤ 2 ^ 31 - 1) : c.WF := by
  obtain ⟨ht, rfl⟩ := (mkChunk_eq_ok_iff t d c).mp h
  exact ⟨rfl, ht, hd⟩

theorem parseChunk_error_code {s : List Byte} {k : ErrorKind} (h : parseChunk s = .error k) :
    k.code.toNat ∈ [0, 1, 2, 3, 4, 6, 8, 9, 10] := by
  rcases parseChunk_error_kind s k h with rfl | rfl | rfl
  · decide
  · decide
  · decide

theorem parsePng_error_code {ps : Params} {s : List Byte} {e : PngError} (h : parsePng ps s = .error e) :
    e.kind.code.toNat ∈ [0, 1, 2, 3, 4, 6, 8, 9, 10] := by
  rcases parsePng_error_kind ps s e h with h | h | h | h | h <;> rw [h] <;> decide

/-- PNG_APPEND and PNG_INSERT add one well-formed record, and only where it fits (R254, R255). -/
theorem State.Inv.addChunk {s : State} (h : s.Inv) (pos : Nat) : ∃ t, addChunk pos s = .next t ∧ t.Inv := by
  rcases addChunk_cases pos s with ⟨-, e⟩ | ⟨-, -, e⟩ | ⟨-, -, -, e⟩ | ⟨hsrc, hroom, c, hc, e⟩
  · exact ⟨_, e, h.complete (by decide)⟩
  · exact ⟨_, e, h.of_eq.complete (by decide)⟩
  · exact ⟨_, e, h.of_eq.complete (by decide)⟩
  · obtain ⟨hcount, hstore⟩ := (State.roomFor_iff s _).mp hroom
    have hcwf : c.WF := Chunk.wf_of_mkChunk hc (h.sourceBytes_length_le hsrc)
    obtain ⟨-, rfl⟩ := (mkChunk_eq_ok_iff _ _ c).mp hc
    refine ⟨_, e, ((h.withSeq (insertAt s.seq pos _) (fun d hd => ?_) ?_ ?_).of_eq).complete (by decide)⟩
    · rcases mem_insertAt _ _ _ _ hd with rfl | hd
      · exact hcwf
      · exact h.seqWF d hd
    · rwa [length_insertAt]
    · rwa [dataBytes_insertAt, State.length_sourceBytes]

theorem dataBytes_le_of_sublist {q r : List Chunk} (h : q.Sublist r) : dataBytes q ≤ dataBytes r :=
  (h.map _).sum_le_sum fun _ _ => Nat.zero_le _

/-- Every command answers a next state and keeps the invariant. -/
theorem State.Inv.exec {s : State} (h : s.Inv) (i : Instr) : ∃ t, exec i s = .next t ∧ t.Inv := by
  cases i with
  | nop => exact ⟨_, exec_nop s, h.complete (by decide)⟩
  | crcInit => exact ⟨_, exec_crcInit s, h.of_eq.complete (by decide)⟩
  | crcByte b => exact ⟨_, exec_crcByte b s, h.of_eq.complete (by decide)⟩
  | crcBuf =>
    rw [exec_crcBuf]
    split
    · exact ⟨_, rfl, h.of_eq.complete (by decide)⟩
    · exact ⟨_, rfl, h.complete (by decide)⟩
  | typeCheck => exact ⟨_, exec_typeCheck s, h.typeChecked.complete (by split <;> decide)⟩
  | chunkParse =>
    rcases exec_chunkParse_cases s with ⟨-, e⟩ | ⟨-, k, hk, e⟩ | ⟨-, c, m, -, e⟩
    · exact ⟨_, e, h.complete (by decide)⟩
    · exact ⟨_, e, h.of_eq.complete (parseChunk_error_code hk)⟩
    · exact ⟨_, e, h.of_eq.complete (by decide)⟩
  | chunkBuild =>
    rcases exec_chunkBuild_cases s with ⟨-, e⟩ | ⟨-, -, -, e⟩ | ⟨-, hdst, c, hc, e⟩
    · exact ⟨_, e, h.complete (by decide)⟩
    · exact ⟨_, e, h.of_eq.complete (by decide)⟩
    · obtain ⟨-, rfl⟩ := (mkChunk_eq_ok_iff _ _ c).mp hc
      rw [State.inBuf_iff] at hdst
      refine ⟨_, e, ((h.memWrite s.argDst.toNat (serChunk _) ?_).of_eq).complete (by decide)⟩
      rwa [length_serChunk, State.length_sourceBytes]
  | pngClear => exact ⟨_, exec_pngClear s, (h.withSeq [] nofun (Nat.zero_le _) (Nat.zero_le _)).complete (by decide)⟩
  | pngParse =>
    rcases exec_pngParse_cases s with ⟨-, e⟩ | ⟨-, x, hx, e⟩ | ⟨hsrc, q, hq, e⟩
    · exact ⟨_, e, h.complete (by decide)⟩
    · exact ⟨_, e, h.of_eq.complete (parsePng_error_code hx)⟩
    · obtain ⟨-, hwf, hcount, hstore⟩ := parsePng_ok s.params s.sourceBytes q hq
      refine ⟨_, e, ((h.withSeq q (fun c hc => ?_) hcount hstore).of_eq).complete (by decide)⟩
      obtain ⟨hcrc, hcon, hlen⟩ := hwf c hc
      exact ⟨hcrc, hcon, Nat.le_trans hlen (h.sourceBytes_length_le hsrc)⟩
  | pngSerialize =>
    rw [exec_pngSerialize]
    split
    next hdst =>
      exact ⟨_, rfl, ((h.memWrite _ _ ((State.inBuf_iff s _ _).mp hdst)).of_eq).complete (by decide)⟩
    next => exact ⟨_, rfl, h.complete (by decide)⟩
  | pngFind =>
    rcases exec_pngFind_cases s with ⟨-, e⟩ | ⟨j, c, -, e⟩
    · exact ⟨_, e, h.complete (by decide)⟩
    · exact ⟨_, e, h.of_eq.complete (by decide)⟩
  | pngRemove =>
    rcases exec_pngRemove_cases s with ⟨-, e⟩ | ⟨j, c, -, e⟩
    · exact ⟨_, e, h.complete (by decide)⟩
    · have hsub : (removeAt s.seq j).Sublist s.seq := removeAt_sublist s.seq j
      exact ⟨_, e, ((h.withSeq _ (fun d hd => h.seqWF d (hsub.subset hd)) (Nat.le_trans hsub.length_le h.seqCount)
        (Nat.le_trans (dataBytes_le_of_sublist hsub) h.seqStore)).of_eq).complete (by decide)⟩
  | pngAppend => exact h.addChunk s.seq.length
  | pngInsert => exact h.addChunk (insertPos s.seq)
  | chunkInfo =>
    rcases exec_chunkInfo_cases s with ⟨-, e⟩ | ⟨c, -, e⟩
    · exact ⟨_, e, h.complete (by decide)⟩
    · exact ⟨_, e, h.of_eq.complete (by decide)⟩
  | chunkData =>
    rcases exec_chunkData_cases s with ⟨-, e⟩ | ⟨c, -, hdst, e⟩
    · exact ⟨_, e, h.complete (by decide)⟩
    · exact ⟨_, e, ((h.memWrite _ _ ((State.inBuf_iff s _ _).mp hdst)).of_eq).complete (by decide)⟩

/-! ## Events and steps -/

/-- The engine completes the word in flight, legal or not, or does nothing. -/
theorem State.Inv.engineStep {s : State} (h : s.Inv) : ∃ t, engineStep s = .next t ∧ t.Inv := by
  cases hw : s.inflight with
  | none => exact ⟨s, engineStep_none s hw, h⟩
  | some w =>
    cases hd : decode w with
    | error r => exact ⟨_, engineStep_illegal s w r hw hd, h.complete (by decide)⟩
    | ok i => rw [engineStep_legal s w i hw hd]; exact h.exec i

theorem State.Inv.coincideStep {s : State} (h : s.Inv) (a : Access) (engineFirst : Bool) :
    ∃ t, coincideStep a engineFirst s = .next t ∧ t.Inv := by
  unfold Machine.coincideStep
  split
  · exact ⟨_, rfl, h.hostAccess a⟩
  · split
    · obtain ⟨u, hu, hinv⟩ := h.engineStep
      exact ⟨u.hostAccess a, by rw [hu]; rfl, hinv.hostAccess a⟩
    · exact (h.hostAccess a).engineStep

theorem State.Inv.resetStep {s : State} (h : s.Inv) (a : Option Access) : (resetStep a s).Inv := by
  unfold Machine.resetStep
  split
  · split
    · exact h.resetBlock
    · exact h.resetBlock.of_eq
  · exact h.resetBlock

theorem State.Inv.ite_withSchedule {s : State} (h : s.Inv) (c : Prop) [Decidable c] (es : List Event) :
    (if c then s else s.withSchedule es).Inv := by
  split
  · exact h
  · exact h.of_eq

/-- The host's own moves are one access each, and then perhaps another schedule (log 10). -/
theorem State.Inv.eventStep {s : State} (h : s.Inv) (e : Event) : ∃ t, eventStep e s = .next t ∧ t.Inv := by
  cases e with
  | access a => exact ⟨_, rfl, h.hostAccess a⟩
  | engine => exact h.engineStep
  | coincide a ef => exact h.coincideStep a ef
  | reset a => exact ⟨_, rfl, h.resetStep a⟩
  | poll => exact ⟨_, rfl, (h.hostAccess _).ite_withSchedule _ _⟩
  | forward off => exact ⟨_, rfl, h.hostAccess _⟩
  | stopOnError => exact ⟨_, rfl, (h.hostAccess _).ite_withSchedule _ _⟩
  | printChunks d => exact ⟨_, rfl, (h.hostAccess _).of_eq⟩

theorem State.Inv.step {s : State} (h : s.Inv) : ∃ t, step s = .next t ∧ t.Inv := by
  cases hs : s.schedule with
  | nil => rw [step_nil s hs]; exact h.engineStep
  | cons e rest => rw [step_cons s e rest hs]; exact h.of_eq.eventStep e

/-- Settles O7: the next state of a step is the one `State.Inv.step` names. -/
theorem stepKeepsInvariant : Obligations.StepKeepsInvariant := by
  intro s t hs ht
  obtain ⟨u, hu, hinv⟩ := hs.step
  cases hu.symm.trans ht
  exact hinv

end Sys2Proof.Machine
end

section
/-! A command outside the CRC32 unit commutes with a change of CRC_STATE (10_state.md R62). -/

namespace Sys2Proof.Machine

/-- The state with another CRC_STATE. -/
def State.withCrc (s : State) (c : Word) : State := { s with crcState := c }

/-! Nothing that the commands branch on sees CRC_STATE. -/

@[simp] theorem State.withCrc_crcState (s : State) (c : Word) : (s.withCrc c).crcState = c := rfl
@[simp] theorem State.withCrc_argLen (s : State) (c : Word) : (s.withCrc c).argLen = s.argLen := rfl
@[simp] theorem State.withCrc_argType (s : State) (c : Word) : (s.withCrc c).argType = s.argType := rfl
@[simp] theorem State.withCrc_argIndex (s : State) (c : Word) : (s.withCrc c).argIndex = s.argIndex := rfl
@[simp] theorem State.withCrc_argDst (s : State) (c : Word) : (s.withCrc c).argDst = s.argDst := rfl
@[simp] theorem State.withCrc_seq (s : State) (c : Word) : (s.withCrc c).seq = s.seq := rfl
@[simp] theorem State.withCrc_params (s : State) (c : Word) : (s.withCrc c).params = s.params := rfl
@[simp] theorem State.withCrc_inBuf (s : State) (c : Word) (a n : Nat) : (s.withCrc c).inBuf a n = s.inBuf a n := rfl
@[simp] theorem State.withCrc_sourceInBuf (s : State) (c : Word) : (s.withCrc c).sourceInBuf = s.sourceInBuf := rfl
@[simp] theorem State.withCrc_sourceBytes (s : State) (c : Word) : (s.withCrc c).sourceBytes = s.sourceBytes := rfl
@[simp] theorem State.withCrc_roomFor (s : State) (c : Word) (n : Nat) : (s.withCrc c).roomFor n = s.roomFor n := rfl

/-! Each command branches the same way from both states, and on every branch the two next states differ in CRC_STATE
only. -/

theorem execChunkParse_withCrc (s : State) (c : Word) :
    execChunkParse (s.withCrc c) = andThen (execChunkParse s) fun t => t.withCrc c := by
  unfold execChunkParse
  rw [State.withCrc_sourceInBuf, State.withCrc_sourceBytes]
  split
  · cases parseChunk s.sourceBytes with
    | error k => rfl
    | ok r => rfl
  · rfl

theorem execChunkBuild_withCrc (s : State) (c : Word) :
    execChunkBuild (s.withCrc c) = andThen (execChunkBuild s) fun t => t.withCrc c := by
  unfold execChunkBuild
  rw [State.withCrc_sourceInBuf, State.withCrc_sourceBytes, State.withCrc_argType, State.withCrc_argDst,
    State.withCrc_argLen, State.withCrc_inBuf]
  split
  · split
    · cases mkChunk (ChunkType.ofWord s.argType) s.sourceBytes with
      | error k => rfl
      | ok d => rfl
    · rfl
  · rfl

theorem execPngParse_withCrc (s : State) (c : Word) :
    execPngParse (s.withCrc c) = andThen (execPngParse s) fun t => t.withCrc c := by
  unfold execPngParse
  rw [State.withCrc_sourceInBuf, State.withCrc_sourceBytes, State.withCrc_params]
  split
  · cases parsePng s.params s.sourceBytes with
    | error e => rfl
    | ok q => rfl
  · rfl

theorem addChunk_withCrc (pos : Nat) (s : State) (c : Word) :
    addChunk pos (s.withCrc c) = andThen (addChunk pos s) fun t => t.withCrc c := by
  unfold addChunk
  rw [State.withCrc_sourceInBuf, State.withCrc_sourceBytes, State.withCrc_argType, State.withCrc_argLen,
    State.withCrc_roomFor]
  split
  · cases mkChunk (ChunkType.ofWord s.argType) s.sourceBytes with
    | error k => rfl
    | ok d => cases s.roomFor s.argLen.toNat <;> rfl
  · rfl

theorem execChunkData_withCrc (s : State) (c : Word) :
    execChunkData (s.withCrc c) = andThen (execChunkData s) fun t => t.withCrc c := by
  unfold execChunkData
  rw [State.withCrc_seq, State.withCrc_argIndex, State.withCrc_argDst]
  cases s.seq[s.argIndex.toNat]? with
  | none => rfl
  | some d =>
    simp only
    rw [State.withCrc_inBuf]
    cases s.inBuf s.argDst.toNat d.data.length <;> rfl

theorem exec_withCrc (i : Instr) (s : State) (c : Word) (hi : usesCrcUnit i = false) :
    exec i (s.withCrc c) = andThen (exec i s) fun t => t.withCrc c := by
  cases i with
  | crcInit | crcByte | crcBuf => cases hi
  | nop | pngClear => rfl
  | typeCheck => rw [exec_typeCheck, exec_typeCheck]; rfl
  | chunkParse => exact execChunkParse_withCrc s c
  | chunkBuild => exact execChunkBuild_withCrc s c
  | pngParse => exact execPngParse_withCrc s c
  | pngSerialize =>
    rw [exec_pngSerialize, exec_pngSerialize, State.withCrc_seq, State.withCrc_argDst, State.withCrc_inBuf]
    split <;> rfl
  | pngFind =>
    show execPngFind _ = andThen (execPngFind s) _
    unfold execPngFind
    rw [State.withCrc_seq, State.withCrc_argType]
    cases findFirst (ChunkType.ofWord s.argType) s.seq <;> rfl
  | pngRemove =>
    show execPngRemove _ = andThen (execPngRemove s) _
    unfold execPngRemove
    rw [State.withCrc_seq, State.withCrc_argType]
    cases findFirst (ChunkType.ofWord s.argType) s.seq <;> rfl
  | pngAppend => exact addChunk_withCrc s.seq.length s c
  | pngInsert => exact addChunk_withCrc (insertPos s.seq) s c
  | chunkInfo =>
    show execChunkInfo _ = andThen (execChunkInfo s) _
    unfold execChunkInfo
    rw [State.withCrc_seq, State.withCrc_argIndex]
    cases s.seq[s.argIndex.toNat]? <;> rfl
  | chunkData => exact execChunkData_withCrc s c

/-- Settles O33. The run with the CRC_STATE that `s` has is the run from `s` itself, which is why the next state has that
CRC_STATE too. -/
theorem framerIgnoresCrcState : Obligations.FramerIgnoresCrcState := by
  intro i s t c hi ht
  have run (d : Word) : exec i (s.withCrc d) = .next (t.withCrc d) := by
    rw [exec_withCrc i s d hi, ht]
    rfl
  have same : t = t.withCrc s.crcState := Host.Outcome.next.inj (ht.symm.trans (run s.crcState))
  exact ⟨run c, by rw [same, State.withCrc_crcState]⟩

end Sys2Proof.Machine
end

section
/-! The register map and the values the registers read (10_state.md R32-R55). -/

namespace Sys2Proof.Machine

/-- Settles O14: the offsets are `regOffset`'s own, and a read of a register reaches that register and no other. -/
theorem registerReadReturnsItsValue : Obligations.RegisterReadReturnsItsValue := by
  refine ⟨rfl, fun s r v => State.hostAccess_reg s r false v, fun s => ?_⟩
  simp [State.readReg]

/-! ## CTRL, STATUS and ERRCODE -/

/-- A one-bit field below a word is its least significant digit. -/
theorem toNat_append_bitField {n : Nat} (x : BitVec n) (b : Bool) :
    (x ++ bitField b).toNat = x.toNat * 2 + if b then 1 else 0 := by
  rw [bitField, ← BitVec.concat, BitVec.toNat_concat, Bool.toNat, Bool.cond_eq_ite]

theorem State.toNat_ctrlWord (s : State) : s.ctrlWord.toNat = if s.ie then 1 else 0 := by
  simp [State.ctrlWord, toNat_append_bitField]

theorem State.toNat_statusWord (s : State) :
    s.statusWord.toNat =
      (if s.busy then 1 else 0) + (if s.done then 2 else 0) + (if s.err then 4 else 0) + (if s.pv then 8 else 0) := by
  simp only [State.statusWord, toNat_append_bitField, BitVec.toNat_ofNat]
  split_ifs <;> rfl

/-- Settles O17: each word is its one-bit fields in their places, over zeros. -/
theorem controlStatusAndErrcodeReadTheirFields : Obligations.ControlStatusAndErrcodeReadTheirFields := by
  intro s
  refine ⟨s.toNat_ctrlWord, ?_, BitVec.toNat_setWidth_of_le (by decide)⟩
  have herr : (if s.err then 4 else 0) = if s.errcode = 0 then 0 else 4 := by
    by_cases h : s.errcode = 0 <;> simp [State.err, h]
  rw [← herr]
  exact s.toNat_statusWord

/-! ## The argument registers -/

/-- The argument registers of R41-R45. -/
def argRegs : List Reg := [.argAddr, .argLen, .argType, .argIndex, .argDst]

/-- With BUSY = 0 a write of an argument register is read back from it, and no other register reads another value. -/
theorem State.readReg_writeReg_arg (s : State) (r q : Reg) (v : Word) (hr : r ∈ argRegs) (hb : s.busy = false) :
    (s.writeReg r v).readReg q = if q = r then v else s.readReg q := by
  simp only [argRegs, List.mem_cons, List.not_mem_nil, or_false] at hr
  rcases hr with rfl | rfl | rfl | rfl | rfl <;>
    (rw [State.writeReg, State.unlessBusy_idle s _ hb]; cases q <;> rfl)

/-- A register write never touches IOBUF or SEQ. -/
theorem State.writeReg_iobuf_seq (s : State) (r : Reg) (v : Word) :
    (s.writeReg r v).iobuf = s.iobuf ∧ (s.writeReg r v).seq = s.seq := by
  cases r with
  | cmd | argAddr | argLen | argType | argIndex | argDst =>
    simp only [State.writeReg, State.unlessBusy]
    split
    · exact ⟨rfl, rfl⟩
    · exact ⟨rfl, rfl⟩
  | _ => exact ⟨rfl, rfl⟩

/-- Settles O18: with BUSY = 0 nothing is lost, so each write is the field update its register names. -/
theorem argumentWriteIsReadBack : Obligations.ArgumentWriteIsReadBack := by
  constructor
  · intro s v hb
    have stores (r : Reg) (t : State) (ht : s.writeReg r v = s.unlessBusy t) :
        s.hostAccess (writeAccess (regOffset r) v) = t := by
      rw [State.hostAccess_writeAccess, ht, State.unlessBusy_idle s t hb]
    exact ⟨stores .argAddr _ rfl, stores .argLen _ rfl, stores .argType _ rfl, stores .argIndex _ rfl,
      stores .argDst _ rfl⟩
  · intro s v r hr hb
    have reads (q : Reg) := State.readReg_writeReg_arg s r q v hr hb
    obtain ⟨hiobuf, hseq⟩ := State.writeReg_iobuf_seq s r v
    rw [State.hostAccess_writeAccess]
    exact ⟨(reads r).trans (if_pos rfl), fun q hq => (reads q).trans (if_neg hq), hiobuf, hseq⟩

/-! ## The count and capacity registers -/

/-- Settles O26: the parameters fit in 32 bits (00_scope.md R7), and so does what the capacities bound (R58). -/
theorem countAndCapacityRegistersFit : Obligations.CountAndCapacityRegistersFit := by
  intro s h
  obtain ⟨⟨-, hbuf⟩, ⟨-, hchunks⟩, hstore⟩ := h.params
  have hcount := h.seqCount
  have hused := h.seqStore
  have nchunks : (s.readReg .nchunks).toNat = s.seq.length := toNat_toReg _ (by omega)
  have storeUsed : (s.readReg .storeUsed).toNat = dataBytes s.seq := toNat_toReg _ (by omega)
  have capChunks : (s.readReg .capChunks).toNat = s.params.maxChunks := toNat_toReg _ (by omega)
  have capStore : (s.readReg .capStore).toNat = s.params.storeBytes := toNat_toReg _ (by omega)
  refine ⟨nchunks, storeUsed, toNat_toReg _ (by omega), capChunks, capStore, ?_, ?_⟩
  · rwa [nchunks, capChunks]
  · rwa [storeUsed, capStore]

end Sys2Proof.Machine
end

section
/-! No step faults and no step refuses: every command ends in a completion (60_exceptions.md R330, R334), and every
event but the engine's is a host move or a reset, which always answers. -/

namespace Sys2Proof.Machine

/-- PNG_APPEND and PNG_INSERT end in a completion, on each of their paths (43_png.md R254, R255). -/
theorem addChunk_completes (pos : Nat) (s : State) : ∃ u code, addChunk pos s = .next (State.complete u code) := by
  rcases addChunk_cases pos s with ⟨-, e⟩ | ⟨-, -, e⟩ | ⟨-, -, -, e⟩ | ⟨-, -, c, -, e⟩ <;>
    exact ⟨_, _, e⟩

/-- Every command ends in a completion, from every state and with success or an error. -/
theorem exec_completes (i : Instr) (s : State) : ∃ u code, exec i s = .next (State.complete u code) := by
  cases i with
  | nop => exact ⟨_, _, exec_nop s⟩
  | crcInit => exact ⟨_, _, exec_crcInit s⟩
  | crcByte b => exact ⟨_, _, exec_crcByte b s⟩
  | crcBuf =>
    rw [exec_crcBuf]
    split <;> exact ⟨_, _, rfl⟩
  | typeCheck => exact ⟨_, _, exec_typeCheck s⟩
  | chunkParse =>
    rcases exec_chunkParse_cases s with ⟨-, e⟩ | ⟨-, k, -, e⟩ | ⟨-, c, m, -, e⟩ <;> exact ⟨_, _, e⟩
  | chunkBuild =>
    rcases exec_chunkBuild_cases s with ⟨-, e⟩ | ⟨-, -, -, e⟩ | ⟨-, -, c, -, e⟩ <;> exact ⟨_, _, e⟩
  | pngClear => exact ⟨_, _, exec_pngClear s⟩
  | pngParse =>
    rcases exec_pngParse_cases s with ⟨-, e⟩ | ⟨-, x, -, e⟩ | ⟨-, q, -, e⟩ <;> exact ⟨_, _, e⟩
  | pngSerialize =>
    rw [exec_pngSerialize]
    split <;> exact ⟨_, _, rfl⟩
  | pngFind =>
    rcases exec_pngFind_cases s with ⟨-, e⟩ | ⟨j, c, -, e⟩ <;> exact ⟨_, _, e⟩
  | pngRemove =>
    rcases exec_pngRemove_cases s with ⟨-, e⟩ | ⟨j, c, -, e⟩ <;> exact ⟨_, _, e⟩
  | pngAppend => exact addChunk_completes s.seq.length s
  | pngInsert => exact addChunk_completes (insertPos s.seq) s
  | chunkInfo =>
    rcases exec_chunkInfo_cases s with ⟨-, e⟩ | ⟨c, -, e⟩ <;> exact ⟨_, _, e⟩
  | chunkData =>
    rcases exec_chunkData_cases s with ⟨-, e⟩ | ⟨c, -, -, e⟩ <;> exact ⟨_, _, e⟩

/-- So does every command word, since an illegal one completes with BadCommand (30_encoding.md R114). -/
theorem runWord_completes (w : Word) (s : State) : ∃ u code, runWord w s = .next (State.complete u code) := by
  cases hd : decode w with
  | error r => exact ⟨s, 8, runWord_illegal w r s hd⟩
  | ok i => rw [runWord_legal w i s hd]; exact exec_completes i s

theorem engineStep_answersNext (s : State) : ∃ t, engineStep s = .next t := by
  cases hw : s.inflight with
  | none => exact ⟨s, engineStep_none s hw⟩
  | some w =>
    obtain ⟨u, code, h⟩ := runWord_completes w s
    exact ⟨_, (engineStep_inflight s w hw).trans h⟩

theorem coincideStep_answersNext (a : Access) (engineFirst : Bool) (s : State) :
    ∃ t, coincideStep a engineFirst s = .next t := by
  unfold coincideStep
  split
  · exact ⟨_, rfl⟩
  · split
    · obtain ⟨u, hu⟩ := engineStep_answersNext s
      exact ⟨u.hostAccess a, by rw [hu]; rfl⟩
    · exact engineStep_answersNext _

theorem eventStep_answersNext (e : Event) (s : State) : ∃ t, eventStep e s = .next t := by
  cases e with
  | engine => exact engineStep_answersNext s
  | coincide a ef => exact coincideStep_answersNext a ef s
  | access | reset | poll | forward | stopOnError | printChunks => exact ⟨_, rfl⟩

/-- Settles O6: a step is the first event of the schedule, or the engine's when there is none. -/
theorem everyStepAnswersNext : Obligations.EveryStepAnswersNext := by
  intro s
  cases hs : s.schedule with
  | nil => rw [step_nil s hs]; exact engineStep_answersNext s
  | cons e rest => rw [step_cons s e rest hs]; exact eventStep_answersNext e _

/-- Settles O5: the two cases of a step, with an access first and with nothing to do. -/
theorem stepPerformsHostAccess : Obligations.StepPerformsHostAccess :=
  ⟨fun s a rest hs => step_cons s (.access a) rest hs,
    fun s hs hw => (step_nil s hs).trans (engineStep_none s hw)⟩

end Sys2Proof.Machine
end

section
/-! The host bus (20_memory.md R86-R92): what a protocol violation does, what a legal buffer access moves, and what a
register write leaves alone. -/

namespace Sys2Proof.Machine

/-! ## Protocol violations -/

/-- A protocol violation sets PV, and a read that is one returns 0; nothing else happens (R86, R89, R90). -/
theorem State.hostAccess_violation {s : State} {a : Access} (h : s.isViolation a) :
    s.hostAccess a = if a.write then { s with pv := true } else { s with pv := true, rdata := 0 } := by
  show s.hostAccess a = s.violation a.write
  rcases (State.isViolation_iff s a).mp h with ⟨hs, hr⟩ | ⟨hs, hn⟩
  · simp only [State.hostAccess, hs, hr]
  · simp only [State.hostAccess, hs, hn]

/-- An access that is no violation reaches a register or bytes of the buffer. -/
theorem State.hostAccess_legal {s : State} {a : Access} (h : ¬ s.isViolation a) :
    (∃ r, s.hostAccess a = s.regAccess a r) ∨ ∃ n, s.hostAccess a = s.bufAccess a n := by
  rw [State.isViolation_iff] at h
  cases hs : a.space with
  | reg =>
    obtain ⟨r, hr⟩ := Option.ne_none_iff_exists'.mp fun hr => h (.inl ⟨hs, hr⟩)
    exact .inl ⟨r, by simp only [State.hostAccess, hs, hr]⟩
  | buf =>
    obtain ⟨n, hn⟩ := Option.ne_none_iff_exists'.mp fun hn => h (.inr ⟨hs, hn⟩)
    exact .inr ⟨n, by simp only [State.hostAccess, hs, hn]⟩

/-- Settles O12: an offset that no register has is the third form of `State.isViolation`. -/
theorem unlistedOffsetIsViolation : Obligations.UnlistedOffsetIsViolation :=
  fun _ _ hs _ _ _ hoff => State.hostAccess_violation (.inl ⟨hs, .inr (.inr hoff)⟩)

/-- Settles O13: these are the first two forms of `State.isViolation`. -/
theorem narrowOrMisalignedRegisterAccessIsViolation : Obligations.NarrowOrMisalignedRegisterAccessIsViolation :=
  fun _ _ hs h => State.hostAccess_violation (.inl ⟨hs, h.imp_right .inl⟩)

/-- Settles O24: a read is a violation, a register read or a buffer read, and each writes what the statement names. -/
theorem readsHaveNoSideEffect : Obligations.ReadsHaveNoSideEffect := by
  intro s a hw
  by_cases hv : s.isViolation a
  · refine ⟨true, s.draws, 0, ?_, fun _ => ⟨rfl, rfl, rfl⟩, fun hn => absurd hv hn⟩
    simp [State.hostAccess_violation hv, hw]
  · rcases State.hostAccess_legal hv with ⟨r, e⟩ | ⟨n, e⟩
    · refine ⟨s.pv, s.draws, s.readReg r, ?_, fun h => absurd h hv, fun _ => rfl⟩
      simp [e, State.regAccess, hw]
    · refine ⟨s.pv, s.draws + n, littleEndianWord (s.hostBytes a.offset.toNat n), ?_, fun h => absurd h hv, fun _ => rfl⟩
      simp [e, State.bufAccess, hw, State.drawn]

/-! ## Register writes without effect -/

/-- A write to a read-only register changes nothing (R91). -/
theorem State.writeReg_readOnly (s : State) (r : Reg) (v : Word) (h : readOnlyReg r = true) : s.writeReg r v = s := by
  cases r with
  | ctrl | status | cmd | argAddr | argLen | argType | argIndex | argDst => cases h
  | id | version | errcode | resLen | resType | resCrc | resIndex | resOffset | crcState | crcResult | typeFlags
  | nchunks | storeUsed | capBuf | capChunks | capStore => rfl

/-- Settles O15: a write of CTRL looks at bit 0 alone, and one of STATUS at bits 1 and 3, which the masks keep. -/
theorem readOnlyWriteChangesNothing : Obligations.ReadOnlyWriteChangesNothing := by
  refine ⟨fun s v r hr => ?_, fun s v => ⟨?_, ?_⟩⟩
  · have hro : readOnlyReg r = true := by revert r; decide
    rw [State.hostAccess_writeAccess, State.writeReg_readOnly s r v hro]
  · have bit0 : (v &&& 0x00000001).getLsbD 0 = v.getLsbD 0 := by simp
    rw [State.write_ctrl, State.write_ctrl, bit0]
  · have bit1 : (v &&& 0x0000000F).getLsbD 1 = v.getLsbD 1 := by simp
    have bit3 : (v &&& 0x0000000F).getLsbD 3 = v.getLsbD 3 := by simp
    rw [State.write_status, State.write_status, bit1, bit3]

/-! ## Little-endian bytes and words (R86) -/

/-- The i-th byte a buffer write stores is byte i of the bus word, counted from bits 7:0. -/
theorem getElem?_littleEndianBytes (v : Word) {n i : Nat} (hn : n ≤ 4) (hi : i < n) :
    (littleEndianBytes v n)[i]? = some (v.extractLsb' (8 * i) 8) := by
  rw [littleEndianBytes, List.getElem?_take_of_lt hi]
  have hi4 : i < 4 := by omega
  interval_cases i <;> rfl

theorem length_littleEndianBytes (v : Word) {n : Nat} (hn : n ≤ 4) : (littleEndianBytes v n).length = n := by
  rw [littleEndianBytes, List.length_take_of_le (by simpa)]

/-- Byte i of the bus word of a buffer read is the i-th byte read, and 0 past the last one. -/
theorem extract_littleEndianWord (bs : List Byte) {i : Nat} (hi : i < 4) :
    (littleEndianWord bs).extractLsb' (8 * i) 8 = bs.getD i 0 := by
  obtain ⟨h3, h2, h1, h0⟩ := extract_wordOf (bs.getD 3 0) (bs.getD 2 0) (bs.getD 1 0) (bs.getD 0 0)
  interval_cases i
  · exact h0
  · exact h1
  · exact h2
  · exact h3

/-- One byte read is zero-extended. -/
theorem littleEndianWord_singleton (b : Byte) : littleEndianWord [b] = b.setWidth 32 := by
  refine BitVec.eq_of_getLsbD_eq fun i hi => ?_
  simp only [littleEndianWord, getLsbD_wordOf, BitVec.getLsbD_setWidth, hi, decide_true, Bool.true_and,
    List.getD_cons_zero, List.getD_cons_succ, List.getD_nil]
  split
  · rfl
  · simp [BitVec.getLsbD_of_ge b i (by omega)]

/-- The bits above a zero-extended byte are 0. -/
theorem extract_setWidth_above (b : Byte) : (b.setWidth 32).extractLsb' 8 24 = 0 := by
  refine BitVec.eq_of_getLsbD_eq fun i _ => ?_
  rw [BitVec.getLsbD_extractLsb', BitVec.getLsbD_setWidth, BitVec.getLsbD_of_ge b (8 + i) (by omega)]
  simp

/-! ## Legal buffer accesses (R86) -/

/-- A buffer access of `n` bytes, at a multiple of `n` and inside the buffer, moves those bytes. -/
theorem State.hostAccess_buf (s : State) (off v : Word) (wd : Width) (w : Bool) {n : Nat} (hwd : bufWidth wd = some n)
    (halign : off.toNat % n = 0) (hin : off.toNat + n ≤ s.params.bufBytes) :
    s.hostAccess { space := .buf, offset := off, width := wd, write := w, wdata := v } =
      if w then s.unlessBusy (s.memWrite off.toNat (littleEndianBytes v n))
      else { s.drawn n with rdata := littleEndianWord (s.hostBytes off.toNat n) } := by
  have hn : s.bufAccess? { space := .buf, offset := off, width := wd, write := w, wdata := v } = some n := by
    simp only [State.bufAccess?, hwd]
    exact if_pos ⟨halign, (State.inBuf_iff s _ _).mpr hin⟩
  simp only [State.hostAccess, hn, State.bufAccess]

/-- While BUSY = 0 a legal buffer write stores its bytes. -/
theorem State.hostAccess_bufWrite_idle (s : State) (off v : Word) (wd : Width) {n : Nat} (hb : s.busy = false)
    (hwd : bufWidth wd = some n) (halign : off.toNat % n = 0) (hin : off.toNat + n ≤ s.params.bufBytes) :
    s.hostAccess { space := .buf, offset := off, width := wd, write := true, wdata := v } =
      s.memWrite off.toNat (littleEndianBytes v n) := by
  rw [State.hostAccess_buf s off v wd true hwd halign hin, if_pos rfl, State.unlessBusy_idle s _ hb]

/-- While BUSY = 0 a legal buffer read returns what the buffer holds. -/
theorem State.hostAccess_bufRead_idle (s : State) (off v : Word) (wd : Width) {n : Nat} (hb : s.busy = false)
    (hwd : bufWidth wd = some n) (halign : off.toNat % n = 0) (hin : off.toNat + n ≤ s.params.bufBytes) :
    s.hostAccess { space := .buf, offset := off, width := wd, write := false, wdata := v } =
      { s.drawn n with rdata := littleEndianWord (s.memRead off.toNat n) } := by
  have hbytes : s.hostBytes off.toNat n = s.memRead off.toNat n := by simp [State.hostBytes, hb]
  rw [State.hostAccess_buf s off v wd false hwd halign hin, hbytes]
  rfl

/-- What a stored bus word leaves in the buffer: its bytes in their places, and every other byte as it was. -/
theorem get?_memWrite_littleEndianBytes (s : State) (a k : Nat) (v : Word) {n : Nat} (hn : n ≤ 4) :
    Memory.get? (s.memWrite a (littleEndianBytes v n)).iobuf k =
      if a ≤ k ∧ k < a + n then some (v.extractLsb' (8 * (k - a)) 8) else Memory.get? s.iobuf k := by
  rw [State.memWrite_iobuf, Memory.get?_setBytes, length_littleEndianBytes v hn]
  split
  next h => exact getElem?_littleEndianBytes v hn (by omega)
  next => rfl

/-- A written byte appears in its lane of the word read (10_state.md R61). -/
theorem extract_littleEndianWord_memRead (s : State) (a : Nat) {n i : Nat} {b : Byte} (hn : n ≤ 4) (hi : i < n)
    (hget : Memory.get? s.iobuf (a + i) = some b) :
    (littleEndianWord (s.memRead a n)).extractLsb' (8 * i) 8 = b := by
  rw [extract_littleEndianWord _ (by omega), List.getD_eq_getElem?_getD, State.memRead_get? s a n i hi,
    State.readByte_written s _ _ b hget]
  rfl

/-- A single byte is read with zeros above it. -/
theorem littleEndianWord_memRead_one (s : State) (a : Nat) :
    littleEndianWord (s.memRead a 1) = (s.readByte a s.draws).setWidth 32 :=
  littleEndianWord_singleton _

/-- Settles O22: the stored memory and the read word are those of the two `_idle` lemmas, and the forms of the last clause
are `State.isViolation`'s of the buffer space. -/
theorem bufferAccessesAreLittleEndian : Obligations.BufferAccessesAreLittleEndian := by
  refine ⟨fun s off v hb halign hin => ⟨?_, ?_⟩, fun s off v hb hin => ⟨?_, ?_⟩, fun s a hs h => ?_⟩
  · have stored (k : Nat) := get?_memWrite_littleEndianBytes s off.toNat k v (Nat.le_refl 4)
    refine ⟨_, State.hostAccess_bufWrite_idle s off v .w32 hb rfl halign hin, fun i hi => ?_, fun k hk => ?_⟩
    · exact (stored _).trans (by rw [if_pos (by omega), Nat.add_sub_cancel_left])
    · exact (stored k).trans (if_neg (by omega))
  · exact ⟨_, _, State.hostAccess_bufRead_idle s off v .w32 hb rfl halign hin,
      fun i b hi hget => extract_littleEndianWord_memRead s _ (Nat.le_refl 4) hi hget⟩
  · refine ⟨_, State.hostAccess_bufWrite_idle s off v .w8 hb rfl (Nat.mod_one _) hin, fun k => ?_⟩
    refine (get?_memWrite_littleEndianBytes s off.toNat k v (show 1 ≤ 4 by decide)).trans ?_
    by_cases hk : k = off.toNat
    · rw [if_pos (by omega), if_pos hk, hk, Nat.sub_self]
    · rw [if_neg (by omega), if_neg hk]
  · refine ⟨_, _, State.hostAccess_bufRead_idle s off v .w8 hb rfl (Nat.mod_one _) hin, fun b hget => ?_, ?_⟩
    · rw [littleEndianWord_memRead_one, State.readByte_written s _ _ b hget]
    · rw [littleEndianWord_memRead_one]
      exact extract_setWidth_above _
  · exact State.hostAccess_violation (.inr ⟨hs, by tauto⟩)

/-- Settles O23: what the one access stores, as the store clauses of O22 say it, is written when the other reads it. -/
theorem mixedWidthsSeeTheSameBytes : Obligations.MixedWidthsSeeTheSameBytes := by
  obtain ⟨word, byte, -⟩ := bufferAccessesAreLittleEndian
  intro s off v hb
  constructor
  · intro hin
    have hbase : (off - off % 4).toNat = off.toNat - off.toNat % 4 := by
      rw [BitVec.toNat_sub_of_le (BitVec.le_def.mpr (Nat.mod_le _ _))]
      rfl
    have hlane : (off - off % 4).toNat + off.toNat % 4 = off.toNat := by omega
    obtain ⟨⟨m, hwrite, hm⟩, -⟩ := byte s off v hb (by omega)
    obtain ⟨-, n, x, hread, hx⟩ := word { s with iobuf := m } (off - off % 4) 0 hb (by omega) (by rwa [hbase])
    rw [hwrite, hread]
    exact hx _ _ (Nat.mod_lt _ (by decide)) (by rw [hlane, hm, if_pos rfl])
  · intro halign hin i hi
    obtain ⟨⟨m, hwrite, hm, -⟩, -⟩ := word s off v hb halign hin
    have hoff : (off + BitVec.ofNat 32 i).toNat = off.toNat + i := by
      have hlt := off.isLt
      rw [BitVec.toNat_add, BitVec.toNat_ofNat]
      omega
    obtain ⟨-, n, x, hread, hx, -⟩ := byte { s with iobuf := m } (off + BitVec.ofNat 32 i) 0 hb
      (by rw [hoff]; exact Nat.lt_of_lt_of_le (by omega) hin)
    rw [hwrite, hread]
    exact hx _ (by rw [hoff]; exact hm i hi)

end Sys2Proof.Machine
end

section
/-! Decoding and encoding (30_encoding.md R110-R116): the fields of a word determine it, the decoder reads exactly the
fields that the encoder writes, and the words that decode are the legal ones. -/

namespace Sys2Proof

/-! ## The fields of a word (R110) -/

/-- A word is its three fields put together again. -/
theorem append_commandFields (w : Word) :
    ((commandFields w).rsvd ++ (commandFields w).imm8) ++ (commandFields w).opcode = w := by
  have upper : w.extractLsb' 16 16 ++ w.extractLsb' 8 8 = w.extractLsb' 8 24 :=
    BitVec.extractLsb'_append_extractLsb'_eq_extractLsb' rfl
  show (w.extractLsb' 16 16 ++ w.extractLsb' 8 8) ++ w.extractLsb' 0 8 = w
  rw [upper]
  exact BitVec.extractLsb'_append_extractLsb'

/-- A word is put together from given fields exactly when those are its fields. -/
theorem append_eq_iff (w : Word) (o b : BitVec 8) (r : BitVec 16) :
    (r ++ b) ++ o = w ↔ commandFields w = { opcode := o, imm8 := b, rsvd := r } := by
  constructor
  · rintro rfl
    exact commandFields_append o b r
  · intro h
    rw [← append_commandFields w, h]

theorem encode_eq_iff (i : Instr) (w : Word) :
    encode i = w ↔ commandFields w = { opcode := opcodeOf i, imm8 := imm8Of i, rsvd := 0 } :=
  append_eq_iff w (opcodeOf i) (imm8Of i) 0

/-! ## Commands and opcodes (R111, R112, R115) -/

/-- Only CRC_BYTE has an immediate (R112). -/
theorem opcodeOf_eq_or_imm8Of_eq_zero (i : Instr) : opcodeOf i = 0x02 ∨ imm8Of i = 0 := by
  cases i with
  | crcByte b => exact .inl rfl
  | _ => exact .inr rfl

theorem opcodeOf_mem_listedOpcodes (i : Instr) : opcodeOf i ∈ listedOpcodes := by
  cases i <;> simp [opcodeOf, listedOpcodes]

/-- An opcode selects the one command that has it, with the word's immediate for CRC_BYTE alone. -/
theorem commandOfOpcode_eq_some_iff (o b : BitVec 8) (i : Instr) :
    commandOfOpcode o b = some i ↔ opcodeOf i = o ∧ (o = 0x02 → imm8Of i = b) := by
  constructor
  · intro h
    unfold commandOfOpcode at h
    split at h <;> cases h <;> simp [opcodeOf, imm8Of]
  · rintro ⟨rfl, himm⟩
    cases i with
    | crcByte c => exact himm rfl ▸ rfl
    | _ => rfl

/-- Every listed opcode selects a command (R115). -/
theorem exists_commandOfOpcode {o : BitVec 8} (h : o ∈ listedOpcodes) (b : BitVec 8) :
    ∃ i, commandOfOpcode o b = some i := by
  have listed : ∀ o ∈ listedOpcodes, (commandOfOpcode o 0).isSome := by decide
  obtain ⟨i, hi⟩ := Option.isSome_iff_exists.mp (listed o h)
  obtain ⟨hop, -⟩ := (commandOfOpcode_eq_some_iff o 0 i).mp hi
  by_cases ho : o = 0x02
  · exact ⟨.crcByte b, ho ▸ rfl⟩
  · exact ⟨i, (commandOfOpcode_eq_some_iff o b i).mpr ⟨hop, fun h2 => absurd h2 ho⟩⟩

/-! ## The decoder (R114, R116) -/

/-- What the decoder checks, in its order: the opcode selects the command, RSVD is 0, and IMM8 is 0 but for CRC_BYTE. -/
theorem decode_eq_ok_iff (w : Word) (i : Instr) :
    decode w = .ok i ↔
      commandOfOpcode (commandFields w).opcode (commandFields w).imm8 = some i ∧ (commandFields w).rsvd = 0 ∧
        ((commandFields w).opcode = 0x02 ∨ (commandFields w).imm8 = 0) := by
  simp only [decode]
  cases commandOfOpcode (commandFields w).opcode (commandFields w).imm8 with
  | none => simp
  | some j =>
    simp only [Option.some.injEq]
    split_ifs with hr hb
    · exact ⟨nofun, fun ⟨_, h, _⟩ => absurd h hr⟩
    · exact ⟨nofun, fun ⟨_, _, h⟩ => by tauto⟩
    · exact ⟨fun h => ⟨Except.ok.inj h, not_not.mp hr, by tauto⟩, fun ⟨h, _⟩ => congrArg Except.ok h⟩

/-- A word decodes to a command exactly when it is that command's encoding. -/
theorem decode_eq_ok_iff_encode (w : Word) (i : Instr) : decode w = .ok i ↔ encode i = w := by
  rw [decode_eq_ok_iff, commandOfOpcode_eq_some_iff, encode_eq_iff]
  cases commandFields w with
  | mk o b r =>
    constructor
    · rintro ⟨⟨rfl, himm⟩, rfl, hb⟩
      have himm8 : imm8Of i = b := by
        rcases opcodeOf_eq_or_imm8Of_eq_zero i with hop | hzero
        · exact himm hop
        · exact hb.elim himm fun h => hzero.trans h.symm
      rw [himm8]
    · intro h
      cases h
      exact ⟨⟨rfl, fun _ => rfl⟩, rfl, opcodeOf_eq_or_imm8Of_eq_zero i⟩

/-- The words that decode are the legal ones: an opcode of R115, RSVD 0, and IMM8 0 but for CRC_BYTE. -/
theorem exists_decode_iff_legal (w : Word) :
    (∃ i, decode w = .ok i) ↔
      (commandFields w).opcode ∈ listedOpcodes ∧ (commandFields w).rsvd = 0 ∧
        ((commandFields w).opcode = 0x02 ∨ (commandFields w).imm8 = 0) := by
  simp only [decode_eq_ok_iff, exists_and_right]
  refine and_congr_left fun _ => ⟨?_, fun h => exists_commandOfOpcode h _⟩
  rintro ⟨i, hi⟩
  obtain ⟨hop, -⟩ := (commandOfOpcode_eq_some_iff _ _ i).mp hi
  exact hop ▸ opcodeOf_mem_listedOpcodes i

/-- The mask of CRC_BYTE's row keeps OPCODE and RSVD (R116). -/
theorem mask_crcByte_iff (w : Word) :
    w &&& 0xFFFF00FF = 0x00000002 ↔ (commandFields w).opcode = 0x02 ∧ (commandFields w).rsvd = 0 := by
  have masked : w &&& 0xFFFF00FF = ((commandFields w).rsvd ++ 0#8) ++ (commandFields w).opcode := by
    have mask : (0xFFFF00FF : Word) = (BitVec.allOnes 16 ++ 0#8) ++ BitVec.allOnes 8 := by decide
    conv_lhs => rw [← append_commandFields w, mask]
    rw [BitVec.and_append, BitVec.and_append, BitVec.and_allOnes, BitVec.and_zero, BitVec.and_allOnes]
  have matched : (0x00000002 : Word) = (0#16 ++ 0#8) ++ 0x02#8 := by decide
  rw [masked, matched, append_eq_iff, commandFields_append]
  simp [eq_comm]

/-- The mask of every other row keeps the whole word. -/
theorem mask_opcode_iff (w : Word) (o : BitVec 8) :
    w &&& 0xFFFFFFFF = o.setWidth 32 ↔
      (commandFields w).opcode = o ∧ (commandFields w).imm8 = 0 ∧ (commandFields w).rsvd = 0 := by
  have matched : o.setWidth 32 = (0#16 ++ 0#8) ++ o := by
    rw [BitVec.setWidth_eq_append (by decide), BitVec.zero_append_zero]
    rfl
  have mask : w &&& 0xFFFFFFFF = w := BitVec.and_allOnes
  rw [mask, matched, eq_comm, append_eq_iff]
  exact (CommandFields.mk.injEq ..).to_iff

/-- Settles O2: the first two clauses are the two directions of `decode_eq_ok_iff_encode`; in the third, the masks of
R116 cut the legal words in two, those of CRC_BYTE and the others. -/
theorem decodeAndEncodeAgree : Obligations.DecodeAndEncodeAgree := by
  refine ⟨fun i => (decode_eq_ok_iff_encode _ i).mpr rfl, fun w i => (decode_eq_ok_iff_encode w i).mp, fun w => ?_⟩
  simp only [exists_decode_iff_legal, mask_opcode_iff, mask_crcByte_iff]
  constructor
  · rintro ⟨hlisted, hr, himm⟩
    by_cases ho : (commandFields w).opcode = 0x02
    · exact .inr ⟨ho, hr⟩
    · exact .inl ⟨_, hlisted, ho, rfl, himm.resolve_left ho, hr⟩
  · rintro (⟨o, hlisted, -, rfl, hb, hr⟩ | ⟨ho, hr⟩)
    · exact ⟨hlisted, hr, .inr hb⟩
    · exact ⟨ho ▸ by decide, hr, .inl ho⟩

/-- Settles O1: each word is the encoding of its command. -/
theorem writtenOutWordsDecode : Obligations.WrittenOutWordsDecode := by
  unfold Obligations.WrittenOutWordsDecode
  simp only [decode_eq_ok_iff_encode]
  decide

end Sys2Proof
end

section
/-! Illegal command words (30_encoding.md R114). -/

namespace Sys2Proof.Machine

/-- Settles O3: the fields of a word are the slices the statement names, and with BUSY = 0 the write of CMD is accepted,
so that the engine finds the word in flight. -/
theorem legalWordsAndBadCommand : Obligations.LegalWordsAndBadCommand := by
  refine ⟨exists_decode_iff_legal, fun s w hb hillegal => ?_⟩
  have accepted : s.hostAccess (writeAccess 0x010 w) = s.accept w := by
    rw [State.write_cmd, State.unlessBusy_idle s _ hb]
  refine ⟨accepted, ?_⟩
  rw [accepted]
  cases hd : decode w with
  | ok i => exact absurd ⟨i, hd⟩ hillegal
  | error r => exact engineStep_illegal (s.accept w) w r rfl hd

end Sys2Proof.Machine
end

section
/-! What a command may write and what it leaves alone (30_encoding.md R115), said once for all commands on the fields of
the state, and then read off for the registers and for IOBUF. -/

namespace Sys2Proof.Machine

/-! ## The frame of a command -/

/-- The frame of a command, between the state `s` before it and its next state `t`: a clause with a premise is about one
field, which is kept by every command that meets the premise. On each path of a command the default proofs look it up in
the premise's table, and then the field is kept or the premise fails. -/
structure CommandFrame (i : Instr) (s t : State) : Prop where
  /-- Outside the completion fields, the results, SEQ, IOBUF and the model's count of draws, nothing changes. -/
  kept : t = { s with
    busy := t.busy, done := t.done, inflight := t.inflight, errcode := t.errcode
    resLen := t.resLen, resType := t.resType, resCrc := t.resCrc, resIndex := t.resIndex, resOffset := t.resOffset
    crcState := t.crcState, typeFlags := t.typeFlags, seq := t.seq, iobuf := t.iobuf, draws := t.draws } := by rfl
  resLen : .resLen ∉ writtenRegs i → t.resLen = s.resLen := by simp [writtenRegs, State.afterSource]
  resType : .resType ∉ writtenRegs i → t.resType = s.resType := by simp [writtenRegs, State.afterSource]
  resCrc : .resCrc ∉ writtenRegs i → t.resCrc = s.resCrc := by simp [writtenRegs, State.afterSource]
  resIndex : .resIndex ∉ writtenRegs i → t.resIndex = s.resIndex := by simp [writtenRegs, State.afterSource]
  resOffset : .resOffset ∉ writtenRegs i → t.resOffset = s.resOffset := by simp [writtenRegs, State.afterSource]
  crcState : usesCrcUnit i = false → t.crcState = s.crcState := by simp [usesCrcUnit, State.afterSource]
  typeFlags : i ≠ .typeCheck → t.typeFlags = s.typeFlags := by simp [State.afterSource]
  seq : editsSeq i = false → t.seq = s.seq := by simp [editsSeq, State.afterSource]
  /-- The bytes stored are those of the range that `storedRange` computes. -/
  iobuf : t.iobuf = s.iobuf ∨
    ∃ a bs, storedRange i s = some (a, bs.length) ∧ t.iobuf = Memory.setBytes s.iobuf a bs := by exact .inl rfl

/-- PNG_APPEND and PNG_INSERT write SEQ and the results their rows list, on success only (R254, R255). -/
theorem addChunk_frame (i : Instr) (hi : i = .pngAppend ∨ i = .pngInsert) (pos : Nat) (s : State) :
    ∃ t, addChunk pos s = .next t ∧ CommandFrame i s t := by
  rcases addChunk_cases pos s with ⟨-, e⟩ | ⟨-, -, e⟩ | ⟨-, -, -, e⟩ | ⟨-, -, c, -, e⟩
  · exact ⟨_, e, {}⟩
  · exact ⟨_, e, {}⟩
  · exact ⟨_, e, {}⟩
  · rcases hi with rfl | rfl <;> exact ⟨_, e, {}⟩

/-- Every command answers a next state in its frame (R115). -/
theorem exec_frame (i : Instr) (s : State) : ∃ t, exec i s = .next t ∧ CommandFrame i s t := by
  cases i with
  | nop => exact ⟨_, exec_nop s, {}⟩
  | crcInit => exact ⟨_, exec_crcInit s, {}⟩
  | crcByte b => exact ⟨_, exec_crcByte b s, {}⟩
  | crcBuf =>
    rw [exec_crcBuf]
    split <;> exact ⟨_, rfl, {}⟩
  | typeCheck => exact ⟨_, exec_typeCheck s, by unfold State.typeChecked; exact {}⟩
  | chunkParse =>
    rcases exec_chunkParse_cases s with ⟨-, e⟩ | ⟨-, k, -, e⟩ | ⟨-, c, m, -, e⟩ <;> exact ⟨_, e, {}⟩
  | chunkBuild =>
    rcases exec_chunkBuild_cases s with ⟨-, e⟩ | ⟨-, -, -, e⟩ | ⟨-, -, c, hc, e⟩
    · exact ⟨_, e, {}⟩
    · exact ⟨_, e, {}⟩
    · have hlen : (serChunk c).length = 12 + s.argLen.toNat := by
        obtain ⟨-, rfl⟩ := (mkChunk_eq_ok_iff _ _ c).mp hc
        rw [length_serChunk, State.length_sourceBytes]
      exact ⟨_, e, { iobuf := .inr ⟨s.argDst.toNat, serChunk c, by rw [hlen]; rfl, rfl⟩ }⟩
  | pngClear => exact ⟨_, exec_pngClear s, {}⟩
  | pngParse =>
    rcases exec_pngParse_cases s with ⟨-, e⟩ | ⟨-, x, -, e⟩ | ⟨-, q, -, e⟩ <;> exact ⟨_, e, {}⟩
  | pngSerialize =>
    rw [exec_pngSerialize]
    split
    · exact ⟨_, rfl, { iobuf := .inr ⟨s.argDst.toNat, serPng s.seq, rfl, rfl⟩ }⟩
    · exact ⟨_, rfl, {}⟩
  | pngFind =>
    rcases exec_pngFind_cases s with ⟨-, e⟩ | ⟨j, c, -, e⟩ <;> exact ⟨_, e, {}⟩
  | pngRemove =>
    rcases exec_pngRemove_cases s with ⟨-, e⟩ | ⟨j, c, -, e⟩ <;> exact ⟨_, e, {}⟩
  | pngAppend => exact addChunk_frame .pngAppend (.inl rfl) s.seq.length s
  | pngInsert => exact addChunk_frame .pngInsert (.inr rfl) (insertPos s.seq) s
  | chunkInfo =>
    rcases exec_chunkInfo_cases s with ⟨-, e⟩ | ⟨c, -, e⟩ <;> exact ⟨_, e, {}⟩
  | chunkData =>
    rcases exec_chunkData_cases s with ⟨-, e⟩ | ⟨c, hc, -, e⟩
    · exact ⟨_, e, {}⟩
    · exact ⟨_, e, { iobuf := .inr ⟨s.argDst.toNat, c.data, by simp [storedRange, hc], rfl⟩ }⟩

theorem CommandFrame.of_exec {i : Instr} {s t : State} (h : exec i s = .next t) : CommandFrame i s t := by
  obtain ⟨u, e, frame⟩ := exec_frame i s
  cases Host.Outcome.next.inj (h.symm.trans e)
  exact frame

/-! ## What the frame says of SEQ, of the registers and of IOBUF -/

/-- Settles O30: these are three clauses of the frame. -/
theorem onlyTheirCommandsWriteSeqAndCrcAndFlags : Obligations.OnlyTheirCommandsWriteSeqAndCrcAndFlags := by
  intro i s t h
  have frame := CommandFrame.of_exec h
  exact ⟨frame.seq, frame.crcState, frame.typeFlags⟩

/-- A command that does not list a register showing CRC_STATE, SEQ or TYPE_FLAGS is none of those that write it. -/
theorem writers_of_unlisted (i : Instr) :
    (.crcState ∉ writtenRegs i ∨ .crcResult ∉ writtenRegs i → usesCrcUnit i = false) ∧
    (.nchunks ∉ writtenRegs i ∨ .storeUsed ∉ writtenRegs i → editsSeq i = false) ∧
    (.typeFlags ∉ writtenRegs i → i ≠ .typeCheck) := by
  cases i <;> simp [usesCrcUnit, editsSeq, writtenRegs]

/-- A register that the table does not list reads as before: it shows fields that the frame keeps. -/
theorem CommandFrame.readReg_eq {i : Instr} {s t : State} (h : CommandFrame i s t) {r : Reg} (hr : r ∉ writtenRegs i)
    (hstatus : r ≠ .status) (herrcode : r ≠ .errcode) : t.readReg r = s.readReg r := by
  obtain ⟨crcUnit, edits, typeCheck⟩ := writers_of_unlisted i
  cases r with
  | status => exact absurd rfl hstatus
  | errcode => exact absurd rfl herrcode
  | id | version | ctrl | cmd | argAddr | argLen | argType | argIndex | argDst | capBuf | capChunks | capStore =>
    rw [h.kept]
    rfl
  | resLen => exact h.resLen hr
  | resType => exact h.resType hr
  | resCrc => exact h.resCrc hr
  | resIndex => exact h.resIndex hr
  | resOffset => exact h.resOffset hr
  | crcState => exact h.crcState (crcUnit (.inl hr))
  | crcResult => exact congrArg (· ^^^ 0xFFFFFFFF) (h.crcState (crcUnit (.inr hr)))
  | typeFlags => exact h.typeFlags (typeCheck hr)
  | nchunks => exact congrArg (toReg ·.length) (h.seq (edits (.inl hr)))
  | storeUsed => exact congrArg (toReg <| dataBytes ·) (h.seq (edits (.inr hr)))

/-- Settles O28: the next state is in the command's frame. -/
theorem commandRegisterFrame : Obligations.CommandRegisterFrame :=
  fun _ _ _ h _ hr hstatus herrcode => (CommandFrame.of_exec h).readReg_eq hr hstatus herrcode

/-- Settles O29: IOBUF is as before, or the stored bytes are exactly those of the computed range. -/
theorem commandBufferFrame : Obligations.CommandBufferFrame := by
  intro i s t h
  rcases (CommandFrame.of_exec h).iobuf with hsame | ⟨b, bs, hrange, hstored⟩
  · exact ⟨fun _ k => by rw [hsame], fun _ _ _ k _ => by rw [hsame]⟩
  · rw [hrange, hstored]
    refine ⟨nofun, fun a n hsome k hk => ?_⟩
    cases hsome
    exact Memory.get?_setBytes_outside s.iobuf b k bs hk

end Sys2Proof.Machine
end

section
/-! The type checker: TYPE_FLAGS as the statement spells it out, and the predicates read as letter case
(40_chunktype.md R140-R150). -/

namespace Sys2Proof.Machine

/-! ## Letters and their case -/

/-- The letters are two ranges of code values (R140). -/
theorem isLetter_eq_decide (b : Byte) :
    isLetter b = decide ((0x41 ≤ b.toNat ∧ b.toNat ≤ 0x5A) ∨ (0x61 ≤ b.toNat ∧ b.toNat ≤ 0x7A)) := by
  simp [isLetter, BitVec.le_def]

/-- Bit 5 splits the letters into their two ranges: 0x41 to 0x5A lie in [64, 96), 0x61 to 0x7A in [96, 128). -/
theorem bit5_iff_lower_of_isLetter {b : Byte} (h : isLetter b = true) :
    b.getLsbD 5 = true ↔ 0x61 ≤ b.toNat ∧ b.toNat ≤ 0x7A := by
  rw [isLetter_eq_decide, decide_eq_true_eq] at h
  rw [BitVec.getLsbD, Nat.testBit_eq_decide_div_mod_eq, decide_eq_true_eq]
  omega

theorem not_bit5_iff_upper_of_isLetter {b : Byte} (h : isLetter b = true) :
    (!b.getLsbD 5) = true ↔ 0x41 ≤ b.toNat ∧ b.toNat ≤ 0x5A := by
  rw [Bool.not_eq_true', ← Bool.not_eq_true, bit5_iff_lower_of_isLetter h]
  rw [isLetter_eq_decide, decide_eq_true_eq] at h
  omega

/-- What construction accepts: four letters, the third with bit 5 clear (R141, R144, R146). -/
theorem ChunkType.constructible_iff (t : ChunkType) :
    t.constructible = true ↔
      (isLetter t.b0 = true ∧ isLetter t.b1 = true ∧ isLetter t.b2 = true ∧ isLetter t.b3 = true) ∧
      t.isReservedBitValid = true := by
  simp [ChunkType.constructible, ChunkType.allLetters, and_assoc]

/-- Settles O43: a constructible type has four letters, and bit 5 of a letter is its case. -/
theorem constructiblePredicatesAreLetterCase : Obligations.ConstructiblePredicatesAreLetterCase := by
  refine ⟨fun t => ⟨rfl, rfl, rfl, rfl⟩, fun _ => bit5_iff_lower_of_isLetter, fun t ht => ?_⟩
  obtain ⟨⟨h0, h1, h2, h3⟩, hreserved⟩ := t.constructible_iff.mp ht
  exact ⟨not_bit5_iff_upper_of_isLetter h0, not_bit5_iff_upper_of_isLetter h1,
    (not_bit5_iff_upper_of_isLetter h2).mp hreserved, bit5_iff_lower_of_isLetter h3⟩

/-! ## TYPE_CHECK -/

/-- Bit 13 of TYPE_FLAGS is constructibility (R53). -/
theorem typeFlagsOf_bit13 (t : ChunkType) : (typeFlagsOf t).getLsbD 13 = t.constructible :=
  getLsbD_typeFlagsOf t 13

/-- Settles O42: the word written is `typeFlagsOf` of ARG_TYPE, whose bits are the statement's once letters are spelled
out as ranges; the code follows constructibility, which is bit 13. -/
theorem typeCheckWritesFlags : Obligations.TypeCheckWritesFlags := by
  refine ⟨by decide, fun s => ⟨typeFlagsOf (ChunkType.ofWord s.argType), fun i => ?_, ?_⟩⟩
  · rw [getLsbD_typeFlagsOf]
    simp only [ChunkType.constructible, ChunkType.allLetters, isLetter_eq_decide]
    rfl
  · rw [exec_typeCheck, typeFlagsOf_bit13]
    rfl

end Sys2Proof.Machine
end

section
/-! The CRC generator as a linear shift register: a byte step is eight shifts, and the table of R174 is their effect on
the byte that is shifted out (41_crc32.md R171-R174). -/

namespace Sys2Proof.Machine

/-- The byte step sees the state and the byte through their exclusive or only. -/
theorem crcStep_eq_iterate (c : Word) (b : Byte) : crcStep c b = crcShift^[8] (c ^^^ b.setWidth 32) := rfl

/-- Settles O38: folding a list with a function that ignores its elements iterates the function. -/
theorem crcStepIsEightReflectedShifts : Obligations.CrcStepIsEightReflectedShifts :=
  fun c b => (crcStep_eq_iterate c b).trans (List.foldl_const crcShift _ (List.range 8)).symm

theorem crcShift_iterate_xor (n : Nat) (x y : Word) : crcShift^[n] (x ^^^ y) = crcShift^[n] x ^^^ crcShift^[n] y := by
  induction n generalizing x y with
  | zero => rfl
  | succ n ih => simp only [Function.iterate_succ_apply, crcShift_xor, ih]

/-- While only zeros are shifted out, the polynomial does not enter. -/
theorem crcShift_iterate_of_low_zero (n : Nat) (x : Word) (h : ∀ i < n, x.getLsbD i = false) :
    crcShift^[n] x = x >>> n := by
  induction n generalizing x with
  | zero => simp
  | succ n ih =>
    have shifted : crcShift x = x >>> 1 := by simp only [crcShift, h 0 n.succ_pos, Bool.false_eq_true, if_false]
    have low (i : Nat) (hi : i < n) : (x >>> 1).getLsbD i = false := by
      rw [BitVec.getLsbD_ushiftRight]
      exact h (1 + i) (by omega)
    rw [Function.iterate_succ_apply, shifted, ih _ low, ← BitVec.shiftRight_add, Nat.add_comm]

theorem byte_setWidth_ushiftRight (b : Byte) : (b.setWidth 32) >>> 8 = 0#32 := by
  ext i hi
  simp

theorem crcTable_eq_iterate (b : Byte) : crcTable b = crcShift^[8] (b.setWidth 32) := by
  rw [crcTable, crcStep_eq_iterate, BitVec.ofNat_eq_ofNat, BitVec.zero_xor]

/-- Eight shifts act on the low byte alone, by its table entry; the upper bytes only move down. -/
theorem crcShift_iterate_eight {x : Word} {b : Byte} (hb : x.setWidth 8 = b) :
    crcShift^[8] x = crcTable b ^^^ x >>> 8 := by
  have split : x = b.setWidth 32 ^^^ (b.setWidth 32 ^^^ x) := by
    rw [← BitVec.xor_assoc, BitVec.xor_self, BitVec.zero_xor]
  have cleared (i : Nat) (hi : i < 8) : (b.setWidth 32 ^^^ x).getLsbD i = false := by
    simp [← hb, hi, show i < 32 by omega]
  calc crcShift^[8] x = crcShift^[8] (b.setWidth 32) ^^^ crcShift^[8] (b.setWidth 32 ^^^ x) := by
        rw [← crcShift_iterate_xor, ← split]
    _ = crcTable b ^^^ (b.setWidth 32 ^^^ x) >>> 8 := by
        rw [← crcTable_eq_iterate, crcShift_iterate_of_low_zero 8 _ cleared]
    _ = crcTable b ^^^ x >>> 8 := by
        rw [BitVec.ushiftRight_xor_distrib, byte_setWidth_ushiftRight, BitVec.zero_xor]

theorem crcTableStep_eq_crcStep (c : Word) (b : Byte) : crcTableStep c b = crcStep c b := by
  rw [crcStep_eq_iterate, crcShift_iterate_eight rfl, BitVec.ushiftRight_xor_distrib, byte_setWidth_ushiftRight,
    BitVec.xor_zero]
  rfl

/-- Settles O39: the equivalence comes from linearity; the five entries are computed. -/
theorem tableStepEqualsByteStep : Obligations.TableStepEqualsByteStep :=
  ⟨crcTableStep_eq_crcStep, by decide⟩

/-- A state that is the byte itself steps to 0. -/
theorem crcStep_setWidth_self (b : Byte) : crcStep (b.setWidth 32) b = 0 := by
  rw [crcStep_eq_iterate, BitVec.xor_self]
  rfl

/-- The byte 0 changes the all-ones state, and another byte changes the state that is the byte itself. -/
theorem exists_crcStep_ne (b : Byte) : ∃ c : Word, crcStep c b ≠ c := by
  by_cases hb : b = 0
  · exact ⟨0xFFFFFFFF, hb ▸ by decide⟩
  · refine ⟨b.setWidth 32, fun h => hb ?_⟩
    rw [crcStep_setWidth_self] at h
    simpa using congrArg (BitVec.setWidth 8) h.symm

end Sys2Proof.Machine
end

section
/-! The commands of the CRC32 unit, and the bytes they feed over a whole run (41_crc32.md R176-R179). -/

namespace Sys2Proof.Machine

/-- Settles O36: CRC_RESULT is the complement of CRC_STATE, and that of all ones is 0. -/
theorem crcInitSetsAllOnes : Obligations.CrcInitSetsAllOnes :=
  ⟨by decide, fun s => ⟨_, exec_crcInit s, rfl, BitVec.xor_self⟩⟩

/-- Settles O37: the word is the encoding of the command. -/
theorem crcByteStepsTheState : Obligations.CrcByteStepsTheState :=
  ⟨fun b => (decode_eq_ok_iff_encode _ (.crcByte b)).mpr rfl, exec_crcByte, by decide, exists_crcStep_ne⟩

theorem exec_crcBuf_inside (s : State) (h : s.sourceInBuf = true) :
    exec .crcBuf s = .next (State.complete { s.afterSource with crcState := crcFeed s.crcState s.sourceBytes } 0) := by
  rw [exec_crcBuf, if_pos h]

theorem exec_crcBuf_outside (s : State) (h : ¬ s.sourceInBuf = true) : exec .crcBuf s = .next (s.complete 9) := by
  rw [exec_crcBuf, if_neg h]

/-- Settles O40: the model's count of draws grows by ARG_LEN. -/
theorem crcBufFeedsTheRange : Obligations.CrcBufFeedsTheRange := by
  refine ⟨by decide, fun s => ⟨fun hin => ⟨s.draws + s.argLen.toNat, ?_⟩, fun hout => ?_⟩⟩
  · exact exec_crcBuf_inside s (s.sourceInBuf_iff.mpr hin)
  · exact exec_crcBuf_outside s fun h => absurd (s.sourceInBuf_iff.mp h) (by omega)

/-- ERRCODE tells whether CRC_BUF fed its range or nothing. -/
theorem crcState_of_exec_crcBuf {s t : State} (h : exec .crcBuf s = .next t) :
    (t.errcode = 0 → t.crcState = crcFeed s.crcState s.sourceBytes) ∧ (t.errcode ≠ 0 → t.crcState = s.crcState) := by
  by_cases hin : s.sourceInBuf = true
  · cases (exec_crcBuf_inside s hin).symm.trans h
    exact ⟨fun _ => rfl, fun hne => absurd rfl hne⟩
  · cases (exec_crcBuf_outside s hin).symm.trans h
    exact ⟨fun h0 => absurd h0 (show (9 : BitVec 8) ≠ 0 by decide), fun _ => rfl⟩

theorem State.hostAccess_crcState (s : State) (a : Access) : (s.hostAccess a).crcState = s.crcState := by
  obtain ⟨-, -, -, -, -, -, h, -⟩ := s.hostAccess_keeps a
  exact h

/-- A run that feeds bytes leaves CRC_STATE stepped by them in order, from wherever it began. -/
theorem Feeds.crcState_eq {bs : List Byte} {s u : State} (h : Feeds bs s u) : u.crcState = crcFeed s.crcState bs := by
  induction h with
  | none s => rfl
  | @byte b bs s t u ht _ ih =>
    cases (exec_crcByte b s).symm.trans ht
    exact ih
  | buf ht h0 _ ih => rw [ih, (crcState_of_exec_crcBuf ht).1 h0, crcFeed_append]
  | failed ht hne _ ih => rw [ih, (crcState_of_exec_crcBuf ht).2 hne]
  | other hi ht _ ih => rw [ih, (CommandFrame.of_exec ht).crcState hi]
  | host _ ih => rw [ih, State.hostAccess_crcState]

/-- Settles O41: CRC_INIT starts the run at all ones, and CRC_RESULT reads the complement, as `crc32` does. -/
theorem crcStreamingLaw : Obligations.CrcStreamingLaw := by
  intro s t u bs hinit hfeeds
  cases (exec_crcInit s).symm.trans hinit
  exact congrArg (· ^^^ 0xFFFFFFFF) hfeeds.crcState_eq

end Sys2Proof.Machine
end

section
/-! The CRC tells two sequences apart that differ in one byte: every step is injective in the state and in the byte, so
the difference is carried to the end (41_crc32.md R172, R173). -/

namespace Sys2Proof.Machine

/-- The generator's top bit is 1 and a right shift leaves the top bit 0, so a shift of a nonzero state is not 0. -/
theorem eq_zero_of_crcShift_eq_zero {x : Word} (h : crcShift x = 0) : x = 0 := by
  unfold crcShift at h
  split at h
  next =>
    have top : (x >>> 1 ^^^ 0xEDB88320).msb = true := by
      rw [BitVec.msb_xor, BitVec.msb_ushiftRight]
      rfl
    rw [h] at top
    cases top
  next low =>
    refine BitVec.eq_of_getLsbD_eq fun i hi => ?_
    cases i with
    | zero => simpa using low
    | succ i => simpa [Nat.add_comm] using congrArg (BitVec.getLsbD · i) h

theorem crcShift_injective : Function.Injective crcShift := by
  intro x y h
  have : crcShift (x ^^^ y) = 0 := by rw [crcShift_xor, h]; exact BitVec.xor_self
  exact BitVec.xor_eq_zero_iff.mp (eq_zero_of_crcShift_eq_zero this)

theorem crcStep_eq_crcStep_iff (c e : Word) (a b : Byte) :
    crcStep c a = crcStep e b ↔ c ^^^ a.setWidth 32 = e ^^^ b.setWidth 32 := by
  rw [crcStep_eq_iterate, crcStep_eq_iterate, (crcShift_injective.iterate 8).eq_iff]

theorem crcFeed_left_injective (s : List Byte) : Function.Injective (crcFeed · s) := by
  induction s with
  | nil => exact Function.injective_id
  | cons b s ih =>
    intro c e h
    have step : crcStep c b = crcStep e b := ih h
    rwa [crcStep_eq_crcStep_iff, BitVec.xor_left_inj] at step

/-- Between equal bytes before and after, one byte is determined by the CRC. -/
theorem eq_of_crc32_eq {p q : List Byte} {a b : Byte} (h : crc32 (p ++ a :: q) = crc32 (p ++ b :: q)) : a = b := by
  rw [crc32, crc32, BitVec.xor_left_inj, crcFeed_append, crcFeed_append] at h
  have step := crcFeed_left_injective q h
  rw [crcStep_eq_crcStep_iff, BitVec.xor_right_inj] at step
  simpa using congrArg (BitVec.setWidth 8) step

theorem chunkCrc_set_ne (t : ChunkType) {d : List Byte} {i : Nat} {b : Byte} (hi : i < d.length) (hb : d[i]? ≠ some b) :
    chunkCrc t (d.set i b) ≠ chunkCrc t d := by
  obtain ⟨p, q, hd, -, hset⟩ := List.exists_of_set (a' := b) hi
  intro h
  rw [hset, chunkCrc, chunkCrc, congrArg (t.bytes ++ ·) hd, ← List.append_assoc, ← List.append_assoc] at h
  exact hb (by rw [List.getElem?_eq_getElem hi, ← eq_of_crc32_eq h])

end Sys2Proof.Machine
end

section
/-! The chunk codec (42_chunk.md R200-R209): what a parse reads off a serialized record, and its checks in order. -/

namespace Sys2Proof.Machine

/-! ## Parsing a serialized record -/

/-- The slice that one part of a concatenation fills. -/
theorem slice_append {p m q : List Byte} {i j : Nat} (hi : p.length = i) (hj : i + m.length = j) :
    slice (p ++ m ++ q) i j = m := by
  rw [slice, List.append_assoc, List.drop_left' hi, List.take_left' (by omega)]

/-- Any record, with further bytes, passes the size check and is read back; only its CRC and its type are left to check.
The record need not be well formed, so that this covers corrupted ones too. -/
theorem parseChunk_serChunk_append (c : Chunk) (r : List Byte) (hlen : c.data.length < 2 ^ 32) :
    parseChunk (serChunk c ++ r) =
      if c.crc ≠ chunkCrc c.type c.data then .error .invalidCrc
      else if c.type.constructible then .ok (c, 12 + c.data.length) else .error .invalidTypeByte := by
  have bytes : serChunk c ++ r =
      be32Bytes (toReg c.data.length) ++ c.type.bytes ++ c.data ++ be32Bytes c.crc ++ r := rfl
  have lengthField : slice (serChunk c ++ r) 0 4 = be32Bytes (toReg c.data.length) := by
    simpa [bytes] using slice_append (p := []) (m := be32Bytes (toReg c.data.length)) rfl rfl
  have typeField : slice (serChunk c ++ r) 4 8 = c.type.bytes := by
    rw [bytes, List.append_assoc _ c.data, List.append_assoc _ _ r]
    exact slice_append rfl rfl
  have dataField : slice (serChunk c ++ r) 8 (8 + c.data.length) = c.data := by
    rw [bytes, List.append_assoc _ _ r]
    exact slice_append rfl rfl
  have crcField : slice (serChunk c ++ r) (8 + c.data.length) (12 + c.data.length) = be32Bytes c.crc := by
    rw [bytes]
    exact slice_append (by simp; omega) (by simp; omega)
  simp only [parseChunk, lengthField, be32_be32Bytes, toNat_toReg _ hlen, typeField, ChunkType.ofBytes_bytes, dataField,
    crcField, List.length_append, length_serChunk]
  rw [if_neg (by omega), if_neg (by omega)]

/-- A well-formed record is read back with its extent (R212). -/
theorem parseChunk_serChunk_of_wf {c : Chunk} (r : List Byte) (h : c.WF) :
    parseChunk (serChunk c ++ r) = .ok (c, 12 + c.data.length) := by
  obtain ⟨hcrc, hcon, hlen⟩ := h
  rw [parseChunk_serChunk_append c r (by omega), if_neg (not_not.mpr hcrc), if_pos hcon]

/-- A change of one data byte in the serialization is the same change in the record. -/
theorem set_serChunk (c : Chunk) {i : Nat} (b : Byte) (hi : i < c.data.length) :
    (serChunk c).set (8 + i) b = serChunk { c with data := c.data.set i b } := by
  have header : (be32Bytes (toReg c.data.length) ++ c.type.bytes).length = 8 := rfl
  rw [serChunk, List.set_append_left _ _ (by rw [List.length_append, header]; omega),
    List.set_append_right _ _ (by omega), header, Nat.add_sub_cancel_left]
  simp [serChunk]

/-- Settles O48: the changed bytes are those of a record whose CRC field is not its CRC. -/
theorem corruptedDataByteIsInvalidCrc : Obligations.CorruptedDataByteIsInvalidCrc := by
  rintro c i b r ⟨hcrc, -, hlen⟩ hi hb
  have wrong : c.crc ≠ chunkCrc c.type (c.data.set i b) := by
    rw [hcrc]
    exact (chunkCrc_set_ne c.type hi hb).symm
  rw [set_serChunk c b hi, parseChunk_serChunk_append _ r (by rw [List.length_set]; omega), if_pos wrong]

/-! ## The checks in order (R204-R208) -/

/-- `ParseChunk`, with its two size checks as one and its fields spelled out as drops and takes. -/
theorem parseChunk_eq (s : List Byte) :
    let l := (be32 (s.take 4)).toNat
    let t := ChunkType.ofBytes ((s.drop 4).take 4)
    let d := (s.drop 8).take l
    let k := be32 ((s.drop (8 + l)).take 4)
    parseChunk s =
      if s.length < 12 ∨ s.length < 12 + l then .error .bufferTooShort
      else if k ≠ crc32 (t.bytes ++ d) then .error .invalidCrc
      else if t.constructible then .ok ({ type := t, data := d, crc := k }, 12 + l)
      else .error .invalidTypeByte := by
  intro l t d k
  have hl : (be32 (slice s 0 4)).toNat = l := rfl
  have ht : ChunkType.ofBytes (slice s 4 8) = t := rfl
  have hd : slice s 8 (8 + l) = d := by rw [slice, Nat.add_sub_cancel_left]
  have hk : be32 (slice s (8 + l) (12 + l)) = k := by rw [slice, show 12 + l - (8 + l) = 4 by omega]
  simp only [parseChunk, hl, ht, hd, hk, chunkCrc]
  by_cases short : s.length < 12
  · rw [if_pos short, if_pos (.inl short)]
  · by_cases cut : s.length < 12 + l
    · rw [if_neg short, if_pos cut, if_pos (.inr cut)]
    · rw [if_neg short, if_neg cut, if_neg (not_or.mpr ⟨short, cut⟩)]

end Sys2Proof.Machine
end

section
/-! CHUNK_PARSE and CHUNK_BUILD (42_chunk.md R210-R212): what each answers on every path, and the round trip. -/

namespace Sys2Proof.Machine

/-! ## CHUNK_PARSE -/

theorem exec_chunkParse_outside (s : State) (h : ¬ s.sourceInBuf = true) :
    exec .chunkParse s = .next (s.complete 9) := by
  rcases exec_chunkParse_cases s with ⟨-, e⟩ | ⟨hin, -⟩ | ⟨hin, -⟩
  · exact e
  · exact absurd hin h
  · exact absurd hin h

theorem exec_chunkParse_error {s : State} {k : ErrorKind} (h : s.sourceInBuf = true)
    (hk : parseChunk s.sourceBytes = .error k) : exec .chunkParse s = .next (s.afterSource.complete k.code) := by
  rcases exec_chunkParse_cases s with ⟨hout, -⟩ | ⟨-, j, hj, e⟩ | ⟨-, c, m, hc, -⟩
  · exact absurd h (ne_true_of_eq_false hout)
  · cases hj.symm.trans hk
    exact e
  · cases hc.symm.trans hk

theorem exec_chunkParse_ok {s : State} {c : Chunk} {m : Nat} (h : s.sourceInBuf = true)
    (hc : parseChunk s.sourceBytes = .ok (c, m)) :
    exec .chunkParse s = .next (State.complete { s.afterSource with
      resLen := toReg c.data.length, resType := c.type.toWord, resCrc := c.crc, resOffset := toReg m } 0) := by
  rcases exec_chunkParse_cases s with ⟨hout, -⟩ | ⟨-, k, hk, -⟩ | ⟨-, d, n, hd, e⟩
  · exact absurd h (ne_true_of_eq_false hout)
  · cases hk.symm.trans hc
  · cases hd.symm.trans hc
    exact e

/-- Settles O44: the source parses to the record, and the model's count of draws grows by ARG_LEN. -/
theorem chunkParseReportsTheChunk : Obligations.ChunkParseReportsTheChunk := by
  intro s c r hc hin hbytes
  have parsed : parseChunk s.sourceBytes = .ok (c, 12 + c.data.length) := by
    rw [State.sourceBytes, hbytes, parseChunk_serChunk_of_wf r hc]
  exact ⟨s.draws + s.argLen.toNat, exec_chunkParse_ok (s.sourceInBuf_iff.mpr hin) parsed⟩

/-- Settles O45: each clause is one branch of `parseChunk_eq`; a source outside the buffer is not read. -/
theorem chunkParseErrorsInOrder : Obligations.ChunkParseErrorsInOrder := by
  intro s bytes l t d k failed
  have parse := parseChunk_eq bytes
  simp only [show bytes.length = s.argLen.toNat from s.length_memRead _ _] at parse
  refine ⟨fun hout => ⟨s.draws, exec_chunkParse_outside s fun h => ?_⟩, fun hin => ?_⟩
  · exact absurd (s.sourceInBuf_iff.mp h) (by omega)
  · have fails {e : ErrorKind} (he : parseChunk bytes = .error e) : failed e.code :=
      ⟨s.draws + s.argLen.toNat, exec_chunkParse_error (s.sourceInBuf_iff.mpr hin) he⟩
    refine ⟨fun short => fails (parse.trans (if_pos short)), fun hlen hk => fails (e := .invalidCrc) ?_,
      fun hlen hk ht => fails (e := .invalidTypeByte) ?_⟩
    · rw [parse, if_neg (by omega), if_pos hk]
    · rw [parse, if_neg (by omega), if_neg (not_not.mpr hk), if_neg (ne_true_of_eq_false ht)]

/-! ## CHUNK_BUILD -/

/-- The chunk that CHUNK_BUILD constructs when its type allows it (R203, R211). -/
def State.builtChunk (s : State) : Chunk :=
  { type := ChunkType.ofWord s.argType, data := s.sourceBytes
    crc := chunkCrc (ChunkType.ofWord s.argType) s.sourceBytes }

/-- The source and the destination range of CHUNK_BUILD lie inside the buffer (R211). -/
def State.buildInBuf (s : State) : Prop :=
  s.argAddr.toNat + s.argLen.toNat ≤ s.params.bufBytes ∧ s.argDst.toNat + 12 + s.argLen.toNat ≤ s.params.bufBytes

theorem State.buildInBuf_iff (s : State) :
    s.buildInBuf ↔ s.sourceInBuf = true ∧ s.inBuf s.argDst.toNat (12 + s.argLen.toNat) = true := by
  rw [State.sourceInBuf_iff, State.inBuf_iff, ← Nat.add_assoc, State.buildInBuf]

theorem exec_chunkBuild_outside {s : State} (h : ¬ s.buildInBuf) : exec .chunkBuild s = .next (s.complete 9) := by
  rw [State.buildInBuf_iff] at h
  rcases exec_chunkBuild_cases s with ⟨-, e⟩ | ⟨hsrc, hdst, -⟩ | ⟨hsrc, hdst, -⟩
  · exact e
  · exact absurd ⟨hsrc, hdst⟩ h
  · exact absurd ⟨hsrc, hdst⟩ h

theorem exec_chunkBuild_inside {s : State} (h : s.buildInBuf) :
    exec .chunkBuild s = .next (if (ChunkType.ofWord s.argType).constructible then
      State.complete { s.afterSource.memWrite s.argDst.toNat (serChunk s.builtChunk) with
        resLen := s.argLen, resType := s.argType, resCrc := s.builtChunk.crc
        resOffset := toReg (12 + s.argLen.toNat) } 0
      else s.afterSource.complete 4) := by
  obtain ⟨hsrc, hdst⟩ := s.buildInBuf_iff.mp h
  rcases exec_chunkBuild_cases s with ⟨hout, -⟩ | ⟨-, -, ht, e⟩ | ⟨-, -, c, hc, e⟩
  · simp [hsrc, hdst] at hout
  · rw [e, if_neg (ne_true_of_eq_false ht)]
  · obtain ⟨ht, rfl⟩ := (mkChunk_eq_ok_iff _ _ c).mp hc
    rw [e, if_pos ht]
    rfl

/-- The bytes stored, spelled out: the length, the type, the data and their CRC, each number big-endian (R202). -/
theorem State.serChunk_builtChunk (s : State) :
    serChunk s.builtChunk = be32Bytes s.argLen ++ be32Bytes s.argType ++ s.sourceBytes ++
      be32Bytes (crc32 ((ChunkType.ofWord s.argType).bytes ++ s.sourceBytes)) := by
  simp only [serChunk, State.builtChunk, State.length_sourceBytes, toReg_toNat, ChunkType.bytes_ofWord, chunkCrc]

theorem State.length_serChunk_builtChunk (s : State) : (serChunk s.builtChunk).length = 12 + s.argLen.toNat := by
  rw [length_serChunk, State.builtChunk, State.length_sourceBytes]

theorem toReg_twelve_add (w : Word) : toReg (12 + w.toNat) = 12 + w := by
  rw [toReg, BitVec.ofNat_add]
  exact congrArg (12 + ·) (toReg_toNat w)

/-- Settles O46: the memory after the store is `Memory.get?_setBytes` of the serialized chunk. -/
theorem chunkBuildStoresTheChunk : Obligations.ChunkBuildStoresTheChunk := by
  refine ⟨by decide, fun s => ⟨fun hin ht => ?_, fun hout => ⟨s.draws, exec_chunkBuild_outside hout⟩, fun hin ht => ?_⟩⟩
  · refine ⟨Memory.setBytes s.iobuf s.argDst.toNat (serChunk s.builtChunk), s.draws + s.argLen.toNat, ?_, fun k => ?_⟩
    · rw [exec_chunkBuild_inside hin, if_pos ht, toReg_twelve_add]
      rfl
    · rw [Memory.get?_setBytes, State.length_serChunk_builtChunk, State.serChunk_builtChunk, ← Nat.add_assoc]
      rfl
  · refine ⟨s.draws + s.argLen.toNat, ?_⟩
    rw [exec_chunkBuild_inside hin, if_neg (ne_true_of_eq_false ht)]
    rfl

/-! ## The round trip (R212) -/

/-- ERRCODE = 0 after CHUNK_BUILD says that the ranges and the type were good and the chunk was stored. -/
theorem stored_of_exec_chunkBuild {s t : State} (h : exec .chunkBuild s = .next t) (h0 : t.errcode = 0) :
    s.buildInBuf ∧ (ChunkType.ofWord s.argType).constructible = true ∧ t.params = s.params ∧
      t.iobuf = Memory.setBytes s.iobuf s.argDst.toNat (serChunk s.builtChunk) := by
  by_cases hin : s.buildInBuf
  · rw [exec_chunkBuild_inside hin] at h
    by_cases ht : (ChunkType.ofWord s.argType).constructible = true
    · rw [if_pos ht] at h
      cases h
      exact ⟨hin, ht, rfl, rfl⟩
    · rw [if_neg ht] at h
      cases h
      exact absurd h0 (show (4 : BitVec 8) ≠ 0 by decide)
  · cases (exec_chunkBuild_outside hin).symm.trans h
    exact absurd h0 (show (9 : BitVec 8) ≠ 0 by decide)

/-- A source range inside a buffer of R7's size is short enough to be a record's data (R57). -/
theorem State.builtChunk_wf {s : State} (hp : s.params.WF) (hin : s.buildInBuf)
    (ht : (ChunkType.ofWord s.argType).constructible = true) : s.builtChunk.WF := by
  obtain ⟨⟨-, hbuf⟩, -⟩ := hp
  obtain ⟨hsrc, -⟩ := hin
  refine ⟨rfl, ht, ?_⟩
  rw [State.builtChunk, State.length_sourceBytes]
  omega

/-- Settles O47: the bytes that CHUNK_BUILD stored are written, so CHUNK_PARSE reads the serialized chunk, of which O44
says what it reports. -/
theorem chunkSelfConsistency : Obligations.ChunkSelfConsistency := by
  refine ⟨fun c r => parseChunk_serChunk_of_wf r, fun s t u hp h h0 hiobuf hparams haddr hlen => ?_⟩
  obtain ⟨hin, ht, hkept, hstored⟩ := stored_of_exec_chunkBuild h h0
  have hwf : s.builtChunk.WF := State.builtChunk_wf hp hin ht
  obtain ⟨⟨-, hbuf⟩, -⟩ := hp
  obtain ⟨-, hdst⟩ := hin
  have extent : u.argLen.toNat = (serChunk s.builtChunk).length := by
    rw [hlen, ← toReg_twelve_add, toNat_toReg _ (by omega), State.length_serChunk_builtChunk]
  have source : u.memRead u.argAddr.toNat u.argLen.toNat = serChunk s.builtChunk ++ [] := by
    rw [extent, List.append_nil, haddr]
    refine u.memRead_written _ _ fun k hk => ?_
    rw [hiobuf, hstored, Memory.get?_setBytes_inside _ _ _ _ hk]
  have inside : u.argAddr.toNat + u.argLen.toNat ≤ u.params.bufBytes := by
    rw [haddr, extent, State.length_serChunk_builtChunk, hparams, hkept]
    omega
  obtain ⟨n, hparse⟩ := chunkParseReportsTheChunk u s.builtChunk [] hwf inside source
  refine ⟨_, hparse, rfl, ?_, ChunkType.toWord_ofWord s.argType, rfl, ?_⟩
  · show toReg s.sourceBytes.length = s.argLen
    rw [State.length_sourceBytes, toReg_toNat]
  · show toReg (12 + s.sourceBytes.length) = 12 + s.argLen
    rw [State.length_sourceBytes, toReg_twelve_add]

end Sys2Proof.Machine
end

section
/-! The image codec (43_png.md R241-R246, R258): serializing a parsed image gives back its bytes, and the chunk loop
reads the records of a serialized list one by one. -/

namespace Sys2Proof.Machine

/-! ## From the bytes to the list and back (R258) -/

/-- `BE32(be32(s)) = s` for a 4-byte sequence. -/
theorem be32Bytes_be32 {s : List Byte} (h : s.length = 4) : be32Bytes (be32 s) = s := by
  obtain ⟨b0, b1, b2, b3, rfl⟩ := List.length_eq_four.mp h
  exact be32Bytes_wordOf b0 b1 b2 b3

theorem ChunkType.bytes_ofBytes {s : List Byte} (h : s.length = 4) : (ChunkType.ofBytes s).bytes = s := by
  obtain ⟨b0, b1, b2, b3, rfl⟩ := List.length_eq_four.mp h
  rfl

theorem slice_append_drop (s : List Byte) {i j : Nat} (h : i ≤ j) : slice s i j ++ s.drop j = s.drop i := by
  conv_rhs => rw [← List.take_append_drop (j - i) (s.drop i), List.drop_drop, Nat.add_sub_cancel' h]
  rfl

/-- The bytes a record was parsed from are its serialization: each field of the record is a slice of them (R202, R204). -/
theorem serChunk_append_of_parseChunk {s : List Byte} {c : Chunk} {m : Nat} (h : parseChunk s = .ok (c, m)) :
    serChunk c ++ s.drop m = s := by
  obtain ⟨-, -, hm, -⟩ := parseChunk_ok s c m h
  obtain ⟨hl, hfit, htype, hdata, hcrc, -, -⟩ := (parseChunk_eq_ok_iff s c m).mp h
  have lengthField : be32Bytes (toReg c.data.length) = slice s 0 4 := by
    rw [show c.data.length = (be32 (slice s 0 4)).toNat by omega, toReg_toNat,
      be32Bytes_be32 (by rw [length_slice]; omega)]
  have typeField : c.type.bytes = slice s 4 8 := by
    rw [htype, ChunkType.bytes_ofBytes (by rw [length_slice]; omega)]
  have crcField : be32Bytes c.crc = slice s (m - 4) m := by
    rw [hcrc, be32Bytes_be32 (by rw [length_slice]; omega)]
  rw [serChunk, lengthField, typeField, hdata, crcField]
  simp only [List.append_assoc]
  rw [slice_append_drop s (by omega), slice_append_drop s (by omega), slice_append_drop s (by omega),
    slice_append_drop s (by omega), List.drop_zero]

/-- A successful chunk loop with enough fuel has serialized all the bytes it was given into its list. -/
theorem flatMap_serChunk_of_parseChunks {ps : Params} {f : Nat} {rest : List Byte} {p : Nat} {out q : List Chunk}
    (hf : rest.length ≤ f) (h : parseChunks ps f rest p out = .ok q) :
    q.flatMap serChunk = out.flatMap serChunk ++ rest := by
  induction f generalizing rest p out with
  | zero =>
    cases List.eq_nil_of_length_eq_zero (Nat.le_zero.mp hf)
    cases h
    rw [List.append_nil]
  | succ f ih =>
    rw [parseChunks_succ] at h
    split at h
    next hnil =>
      cases h
      rw [hnil, List.append_nil]
    next =>
      split at h
      next => cases h
      next c m hc =>
        obtain ⟨-, -, hm, -⟩ := parseChunk_ok rest c m hc
        split at h
        next => cases h
        next =>
          calc q.flatMap serChunk
              = (out ++ [c]).flatMap serChunk ++ rest.drop m := ih (by rw [List.length_drop]; omega) h
            _ = out.flatMap serChunk ++ (serChunk c ++ rest.drop m) := by simp
            _ = out.flatMap serChunk ++ rest := by rw [serChunk_append_of_parseChunk hc]

/-- A parsed image serializes to exactly its bytes (R258). -/
theorem serPng_of_parsePng {ps : Params} {s : List Byte} {q : List Chunk} (h : parsePng ps s = .ok q) :
    serPng q = s := by
  obtain ⟨hsig, -⟩ := parsePng_ok ps s q h
  rw [parsePng, if_pos hsig] at h
  have body := flatMap_serChunk_of_parseChunks (by rw [List.length_drop]; omega) h
  calc serPng q = s.take 8 ++ s.drop 8 := by rw [serPng, body, hsig]; rfl
    _ = s := List.take_append_drop 8 s

/-! ## From the list to the bytes and back (R241, R246) -/

/-- Over the serialization of well-formed records that keep the capacities, the chunk loop takes each record in turn and
goes on with the bytes after them (R241, R245). -/
theorem parseChunks_flatMap_serChunk (ps : Params) {f : Nat} {q : List Chunk} {rest : List Byte} {p : Nat}
    {out : List Chunk} (hwf : ∀ c ∈ q, c.WF) (hf : (q.flatMap serChunk ++ rest).length ≤ f)
    (hcount : out.length + q.length ≤ ps.maxChunks) (hstore : dataBytes out + dataBytes q ≤ ps.storeBytes) :
    parseChunks ps f (q.flatMap serChunk ++ rest) p out = parseChunks ps f rest (p + serLength q) (out ++ q) := by
  induction q generalizing p out with
  | nil => simp
  | cons c q ih =>
    obtain ⟨hc, hq⟩ := List.forall_mem_cons.mp hwf
    rw [List.length_cons] at hcount
    rw [dataBytes_cons] at hstore
    rw [List.flatMap_cons, List.append_assoc] at hf ⊢
    have hlen := length_serChunk c
    rw [List.length_append] at hf
    have nonempty : serChunk c ++ (q.flatMap serChunk ++ rest) ≠ [] :=
      List.append_ne_nil_of_left_ne_nil (List.ne_nil_of_length_pos (by omega)) _
    rw [parseChunks_step ps f _ p out (by rw [List.length_append]; omega) nonempty, parseChunk_serChunk_of_wf _ hc]
    dsimp only
    rw [if_neg (by omega), List.drop_left' hlen, ih hq (by omega) (by simp; omega) (by simp; omega), serLength_cons,
      List.append_assoc, List.singleton_append, Nat.add_assoc]

/-- Parsing an image that begins with a serialized list within the capacities comes down to the bytes after the list. -/
theorem parsePng_serPng_append {ps : Params} {q : List Chunk} (rest : List Byte) (hwf : ∀ c ∈ q, c.WF)
    (hcount : q.length ≤ ps.maxChunks) (hstore : dataBytes q ≤ ps.storeBytes) :
    parsePng ps (serPng q ++ rest) =
      parseChunks ps (serPng q ++ rest).length rest (8 + serLength q) q := by
  have bytes : serPng q ++ rest = pngSignature ++ (q.flatMap serChunk ++ rest) := List.append_assoc _ _ _
  have header : pngSignature.length = 8 := rfl
  have fuel : (q.flatMap serChunk ++ rest).length ≤ (pngSignature ++ (q.flatMap serChunk ++ rest)).length :=
    (List.sublist_append_right _ _).length_le
  rw [parsePng, bytes, List.take_left' header, if_pos rfl, List.drop_left' header,
    parseChunks_flatMap_serChunk ps hwf fuel (by simpa using hcount) (by simpa using hstore), List.nil_append]

/-- The image of a well-formed list within the capacities parses to the list (R250). -/
theorem parsePng_serPng {ps : Params} {q : List Chunk} (hwf : ∀ c ∈ q, c.WF) (hcount : q.length ≤ ps.maxChunks)
    (hstore : dataBytes q ≤ ps.storeBytes) : parsePng ps (serPng q) = .ok q := by
  simpa using parsePng_serPng_append [] hwf hcount hstore

/-- Where a chunk does not parse, the image does not, and the error has that place (R244). -/
theorem parsePng_serPng_append_error {ps : Params} {q : List Chunk} {rest : List Byte} {k : ErrorKind}
    (hwf : ∀ c ∈ q, c.WF) (hcount : q.length ≤ ps.maxChunks) (hstore : dataBytes q ≤ ps.storeBytes) (hne : rest ≠ [])
    (hk : parseChunk rest = .error k) :
    parsePng ps (serPng q ++ rest) = .error { kind := k, offset := 8 + serLength q, count := q.length } := by
  rw [parsePng_serPng_append rest hwf hcount hstore, parseChunks_step ps _ rest _ q (by simp) hne, hk]

/-- A chunk that parses but breaks a capacity is a CapacityExceeded at its place (R245). -/
theorem parsePng_serPng_append_full {ps : Params} {q : List Chunk} {rest : List Byte} {c : Chunk} {m : Nat}
    (hwf : ∀ c ∈ q, c.WF) (hcount : q.length ≤ ps.maxChunks) (hstore : dataBytes q ≤ ps.storeBytes) (hne : rest ≠ [])
    (hc : parseChunk rest = .ok (c, m))
    (hfull : ps.maxChunks < q.length + 1 ∨ ps.storeBytes < dataBytes q + c.data.length) :
    parsePng ps (serPng q ++ rest) =
      .error { kind := .capacityExceeded, offset := 8 + serLength q, count := q.length } := by
  rw [parsePng_serPng_append rest hwf hcount hstore, parseChunks_step ps _ rest _ q (by simp) hne, hc]
  exact if_pos hfull

end Sys2Proof.Machine
end

section
/-! PNG_CLEAR, PNG_PARSE and PNG_SERIALIZE (43_png.md R249-R251, R258). -/

namespace Sys2Proof.Machine

/-! ## PNG_CLEAR -/

/-- Settles O49: the counts that NCHUNKS and STORE_USED show are those of the empty list. -/
theorem pngClearEmptiesSeq : Obligations.PngClearEmptiesSeq :=
  ⟨by decide, fun s => ⟨_, exec_pngClear s, rfl, rfl, rfl⟩⟩

/-! ## PNG_PARSE -/

theorem exec_pngParse_outside {s : State} (h : ¬ s.sourceInBuf = true) : exec .pngParse s = .next (s.complete 9) := by
  rcases exec_pngParse_cases s with ⟨-, e⟩ | ⟨hin, -⟩ | ⟨hin, -⟩
  · exact e
  · exact absurd hin h
  · exact absurd hin h

theorem exec_pngParse_error {s : State} {x : PngError} (h : s.sourceInBuf = true)
    (hx : parsePng s.params s.sourceBytes = .error x) :
    exec .pngParse s = .next (State.complete
      { s.afterSource with resOffset := toReg x.offset, resIndex := toReg x.count } x.kind.code) := by
  rcases exec_pngParse_cases s with ⟨hout, -⟩ | ⟨-, y, hy, e⟩ | ⟨-, q, hq, -⟩
  · exact absurd h (ne_true_of_eq_false hout)
  · cases hy.symm.trans hx
    exact e
  · cases hq.symm.trans hx

theorem exec_pngParse_ok {s : State} {q : List Chunk} (h : s.sourceInBuf = true)
    (hq : parsePng s.params s.sourceBytes = .ok q) :
    exec .pngParse s = .next (State.complete
      { s.afterSource with seq := q, resIndex := toReg q.length, resOffset := s.argLen } 0) := by
  rcases exec_pngParse_cases s with ⟨hout, -⟩ | ⟨-, x, hx, -⟩ | ⟨-, r, hr, e⟩
  · exact absurd h (ne_true_of_eq_false hout)
  · cases hx.symm.trans hq
  · cases hr.symm.trans hq
    exact e

/-- Settles O50: the image parses to the list, and the model's count of draws grows by ARG_LEN. -/
theorem pngParseLoadsTheImage : Obligations.PngParseLoadsTheImage := by
  intro s q hwf hcount hstore hin hbytes
  have parsed : parsePng s.params s.sourceBytes = .ok q := by
    rw [State.sourceBytes, hbytes, parsePng_serPng hwf hcount hstore]
  exact ⟨s.draws + s.argLen.toNat, exec_pngParse_ok (s.sourceInBuf_iff.mpr hin) parsed⟩

/-- Settles O51: each clause is one error of `parsePng`; a source outside the buffer is not read. -/
theorem pngParseReportsWhereItFailed : Obligations.PngParseReportsWhereItFailed := by
  intro s bytes failed
  refine ⟨fun hout => exec_pngParse_outside fun h => ?_, fun hin => ?_⟩
  · exact absurd (s.sourceInBuf_iff.mp h) (by omega)
  · have fails {x : PngError} (hx : parsePng s.params bytes = .error x) : failed x.kind.code x.offset x.count :=
      ⟨s.draws + s.argLen.toNat, exec_pngParse_error (s.sourceInBuf_iff.mpr hin) hx⟩
    refine ⟨fun hsig => fails (x := ⟨.invalidSignature, 0, 0⟩) (if_neg hsig), ?_⟩
    intro q rest hwf hcount hstore hbytes hne
    rw [hbytes] at fails
    exact ⟨fun k hk => fails (parsePng_serPng_append_error hwf hcount hstore hne hk),
      fun c m hc hfull => fails (parsePng_serPng_append_full hwf hcount hstore hne hc hfull)⟩

/-! ## PNG_SERIALIZE -/

theorem exec_pngSerialize_fits {s : State} (h : s.argDst.toNat + (serPng s.seq).length ≤ s.params.bufBytes) :
    exec .pngSerialize s = .next (State.complete { s.memWrite s.argDst.toNat (serPng s.seq) with
      resLen := toReg (serPng s.seq).length, resIndex := toReg s.seq.length } 0) := by
  rw [exec_pngSerialize, if_pos ((State.inBuf_iff s _ _).mpr h)]

/-- Settles O53: the memory after the store is `Memory.get?_setBytes` of the serialized list. -/
theorem pngSerializeStoresTheImage : Obligations.PngSerializeStoresTheImage := by
  refine ⟨by decide, fun s => ⟨length_serPng s.seq, fun hfits => ?_, fun hover => ?_⟩⟩
  · exact ⟨_, exec_pngSerialize_fits hfits, fun k => Memory.get?_setBytes s.iobuf s.argDst.toNat k (serPng s.seq)⟩
  · rw [exec_pngSerialize, if_neg]
    · rfl
    · rw [State.inBuf_iff]
      exact Nat.not_le.mpr hover

/-! ## The round trip (R258) -/

/-- Every error kind has a code of its own above 0, the code of success (60_exceptions.md R320). -/
theorem ErrorKind.code_ne_zero (k : ErrorKind) : k.code ≠ 0 := by cases k <;> decide

/-- ERRCODE = 0 after PNG_PARSE says that SEQ is the list parsed from the source. -/
theorem parsePng_of_exec_pngParse {s t : State} (h : exec .pngParse s = .next t) (h0 : t.errcode = 0) :
    parsePng s.params s.sourceBytes = .ok t.seq := by
  rcases exec_pngParse_cases s with ⟨-, e⟩ | ⟨-, x, -, e⟩ | ⟨-, q, hq, e⟩
  · cases e.symm.trans h
    exact absurd h0 (ErrorKind.code_ne_zero .rangeError)
  · cases e.symm.trans h
    exact absurd h0 (ErrorKind.code_ne_zero x.kind)
  · cases e.symm.trans h
    exact hq

/-- Settles O52: the list serializes to the bytes parsed, so PNG_SERIALIZE stores those. -/
theorem pngRoundTrip : Obligations.PngRoundTrip := by
  refine ⟨fun ps bytes q h => ?_, fun s t u h h0 hseq hfits => ?_⟩
  · have image := serPng_of_parsePng h
    exact ⟨image, image ▸ h⟩
  · have image : serPng u.seq = s.sourceBytes := by rw [hseq, serPng_of_parsePng (parsePng_of_exec_pngParse h h0)]
    have extent : (serPng u.seq).length = s.argLen.toNat := by rw [image, State.length_sourceBytes]
    refine ⟨_, exec_pngSerialize_fits (by rwa [extent]), rfl, ?_, fun k hk => ?_⟩
    · show toReg (serPng u.seq).length = s.argLen
      rw [extent, toReg_toNat]
    · show Memory.get? (Memory.setBytes u.iobuf u.argDst.toNat (serPng u.seq)) (u.argDst.toNat + k) = s.sourceBytes[k]?
      rw [image]
      exact Memory.get?_setBytes_inside _ _ _ _ hk

end Sys2Proof.Machine
end

section
/-! PNG_FIND, PNG_REMOVE, CHUNK_INFO and CHUNK_DATA (43_png.md R247, R252, R253, R256, R257, R259): the commands that
pick one record of SEQ, which stands between the records before it and those after it. -/

namespace Sys2Proof.Machine

/-! ## The record picked -/

theorem removeAt_middle (pre post : List Chunk) (c : Chunk) : removeAt (pre ++ c :: post) pre.length = pre ++ post := by
  rw [removeAt, List.take_left, List.drop_length_add_append]
  rfl

theorem chunkOffset_middle (pre post : List Chunk) (c : Chunk) :
    chunkOffset (pre ++ c :: post) pre.length = 8 + (pre.map fun d => 12 + d.data.length).sum := by
  rw [chunkOffset, List.take_left, serLength]

/-- The first record of a type, by the records before it and after it (R247). -/
theorem findFirst_eq_some_iff_append (t : ChunkType) (q : List Chunk) (i : Nat) (c : Chunk) :
    findFirst t q = some (i, c) ↔
      c.type = t ∧ ∃ pre post, q = pre ++ c :: post ∧ pre.length = i ∧ ∀ d ∈ pre, d.type ≠ t := by
  rw [findFirst_eq_some_iff]
  constructor
  · rintro ⟨hi, hc, hbefore⟩
    obtain ⟨hlt, rfl⟩ := List.getElem?_eq_some_iff.mp hi
    refine ⟨hc, q.take i, q.drop (i + 1), ?_, List.length_take_of_le hlt.le, fun d hd => ?_⟩
    · rw [← List.drop_eq_getElem_cons hlt, List.take_append_drop]
    · obtain ⟨j, hj, hjd⟩ := List.mem_take_iff_getElem.mp hd
      exact hbefore j (by omega) d (List.getElem?_eq_some_iff.mpr ⟨by omega, hjd⟩)
  · rintro ⟨hc, pre, post, rfl, rfl, hpre⟩
    refine ⟨by simp, hc, fun j hj d hd => ?_⟩
    rw [List.getElem?_append_left hj] at hd
    exact hpre d (List.mem_of_getElem? hd)

/-- Raw bytes compared: a type has the bytes of ARG_TYPE exactly when it is the type ARG_TYPE holds. -/
theorem ChunkType.bytes_eq_be32Bytes_iff (t : ChunkType) (w : Word) : t.bytes = be32Bytes w ↔ t = ChunkType.ofWord w :=
  ⟨fun h => ChunkType.bytes_injective t _ h, fun h => h ▸ ChunkType.bytes_ofWord w⟩

/-! ## PNG_FIND and PNG_REMOVE -/

theorem exec_pngFind_none {s : State} (h : ∀ d ∈ s.seq, d.type ≠ ChunkType.ofWord s.argType) :
    exec .pngFind s = .next (s.complete 6) := by
  have absent := (findFirst_eq_none_iff _ _).mpr h
  rcases exec_pngFind_cases s with ⟨-, e⟩ | ⟨i, c, hc, -⟩
  · exact e
  · cases absent.symm.trans hc

theorem exec_pngRemove_none {s : State} (h : ∀ d ∈ s.seq, d.type ≠ ChunkType.ofWord s.argType) :
    exec .pngRemove s = .next (s.complete 6) := by
  have absent := (findFirst_eq_none_iff _ _).mpr h
  rcases exec_pngRemove_cases s with ⟨-, e⟩ | ⟨i, c, hc, -⟩
  · exact e
  · cases absent.symm.trans hc

section
variable {s : State} {pre post : List Chunk} {c : Chunk} (hseq : s.seq = pre ++ c :: post)
  (hc : c.type = ChunkType.ofWord s.argType) (hpre : ∀ d ∈ pre, d.type ≠ ChunkType.ofWord s.argType)
include hseq hc hpre

theorem findFirst_middle : findFirst (ChunkType.ofWord s.argType) s.seq = some (pre.length, c) :=
  (findFirst_eq_some_iff_append _ _ _ _).mpr ⟨hc, pre, post, hseq, rfl, hpre⟩

theorem exec_pngFind_middle : exec .pngFind s = .next (State.complete { s with
    resIndex := toReg pre.length, resLen := toReg c.data.length, resType := s.argType, resCrc := c.crc
    resOffset := toReg (8 + (pre.map fun d => 12 + d.data.length).sum) } 0) := by
  have found := findFirst_middle hseq hc hpre
  rcases exec_pngFind_cases s with ⟨hnone, -⟩ | ⟨i, d, hd, e⟩
  · cases hnone.symm.trans found
  · cases hd.symm.trans found
    rw [e, hseq, chunkOffset_middle]

theorem exec_pngRemove_middle : exec .pngRemove s = .next (State.complete { s with
    seq := pre ++ post
    resIndex := toReg pre.length, resLen := toReg c.data.length, resType := s.argType, resCrc := c.crc } 0) := by
  have found := findFirst_middle hseq hc hpre
  rcases exec_pngRemove_cases s with ⟨hnone, -⟩ | ⟨i, d, hd, e⟩
  · cases hnone.symm.trans found
  · cases hd.symm.trans found
    rw [e, hseq, removeAt_middle]

end

/-- Settles O54: the first match is the record between the two lists. -/
theorem pngFindReportsTheFirstMatch : Obligations.PngFindReportsTheFirstMatch := by
  refine ⟨by decide, fun s => ?_⟩
  simp only [ne_eq, ChunkType.bytes_eq_be32Bytes_iff]
  exact ⟨fun pre post c => exec_pngFind_middle, exec_pngFind_none⟩

/-- Settles O55: as for PNG_FIND, and without its index the list is the records before and after. -/
theorem pngRemoveTakesTheFirstMatchOut : Obligations.PngRemoveTakesTheFirstMatchOut := by
  refine ⟨by decide, fun s => ?_⟩
  simp only [ne_eq, ChunkType.bytes_eq_be32Bytes_iff]
  exact ⟨fun pre post c => exec_pngRemove_middle, exec_pngRemove_none⟩

/-- A list with one record of a type is that record between records of other types. -/
theorem exists_middle_of_length_filter_eq_one {t : ChunkType} {q : List Chunk}
    (h : (q.filter fun c => c.type = t).length = 1) :
    ∃ pre c post, q = pre ++ c :: post ∧ c.type = t ∧ (∀ d ∈ pre, d.type ≠ t) ∧ ∀ d ∈ post, d.type ≠ t := by
  obtain ⟨c, hc⟩ := List.length_eq_one_iff.mp h
  obtain ⟨pre, post, rfl, hpre, hct, hpost⟩ := List.filter_eq_cons_iff.mp hc
  exact ⟨pre, c, post, rfl, by simpa using hct, by simpa using hpre, by simpa using hpost⟩

/-- Settles O56: the records before and after the one taken out are the records of the other types. -/
theorem removedTypeIsNotFound : Obligations.RemovedTypeIsNotFound := by
  intro s h
  obtain ⟨pre, c, post, hseq, hc, hpre, hpost⟩ := exists_middle_of_length_filter_eq_one h
  have others : ∀ d ∈ pre ++ post, d.type ≠ ChunkType.ofWord s.argType := List.forall_mem_append.mpr ⟨hpre, hpost⟩
  refine ⟨_, exec_pngRemove_middle hseq hc hpre, ?_, ?_, _, exec_pngFind_none others, rfl, rfl⟩
  · simp [hseq, Nat.add_assoc]
  · have kept : (pre ++ post).filter (fun d => d.type ≠ ChunkType.ofWord s.argType) = pre ++ post :=
      List.filter_eq_self.mpr fun d hd => decide_eq_true (others d hd)
    rw [hseq, List.filter_append, List.filter_cons_of_neg (by simp [hc]), ← List.filter_append, kept]
    rfl

/-! ## CHUNK_INFO and CHUNK_DATA -/

theorem exec_chunkInfo_outside {s : State} (h : s.seq.length ≤ s.argIndex.toNat) :
    exec .chunkInfo s = .next (s.complete 9) := by
  have absent := List.getElem?_eq_none h
  rcases exec_chunkInfo_cases s with ⟨-, e⟩ | ⟨c, hc, -⟩
  · exact e
  · cases absent.symm.trans hc

theorem exec_chunkInfo_at {s : State} {c : Chunk} (h : s.seq[s.argIndex.toNat]? = some c) :
    exec .chunkInfo s = .next (State.complete { s with
      resLen := toReg c.data.length, resType := c.type.toWord, resCrc := c.crc
      resOffset := toReg (chunkOffset s.seq s.argIndex.toNat) } 0) := by
  rcases exec_chunkInfo_cases s with ⟨hnone, -⟩ | ⟨d, hd, e⟩
  · cases hnone.symm.trans h
  · cases hd.symm.trans h
    exact e

/-- Settles O59: the record at ARG_INDEX is the one after ARG_INDEX others. -/
theorem chunkInfoReportsTheRecord : Obligations.ChunkInfoReportsTheRecord := by
  refine ⟨by decide, fun s => ⟨fun pre post c hseq hi => ?_, exec_chunkInfo_outside⟩⟩
  have found : s.seq[s.argIndex.toNat]? = some c := by simp [hseq, hi]
  rw [exec_chunkInfo_at found, hi, hseq, chunkOffset_middle]
  rfl

theorem exec_chunkData_outside {s : State} (h : s.seq.length ≤ s.argIndex.toNat) :
    exec .chunkData s = .next (s.complete 9) := by
  have absent := List.getElem?_eq_none h
  rcases exec_chunkData_cases s with ⟨-, e⟩ | ⟨c, hc, -⟩
  · exact e
  · cases absent.symm.trans hc

theorem exec_chunkData_at {s : State} {c : Chunk} (h : s.seq[s.argIndex.toNat]? = some c) :
    exec .chunkData s = .next (if s.argDst.toNat + c.data.length ≤ s.params.bufBytes then
      State.complete { s.memWrite s.argDst.toNat c.data with resLen := toReg c.data.length } 0
      else s.complete 9) := by
  rcases exec_chunkData_cases s with ⟨hnone | ⟨d, hd, hover⟩, e⟩ | ⟨d, hd, hfits, e⟩
  · cases hnone.symm.trans h
  · cases hd.symm.trans h
    rw [e, if_neg ((State.inBuf_iff s _ _).not.mp (ne_true_of_eq_false hover))]
  · cases hd.symm.trans h
    rw [e, if_pos ((State.inBuf_iff s _ _).mp hfits)]

/-- Settles O60: the memory after the store is `Memory.get?_setBytes` of the record's data. -/
theorem chunkDataStoresTheData : Obligations.ChunkDataStoresTheData := by
  refine ⟨by decide, fun s => ⟨fun c hc hfits => ?_, exec_chunkData_outside, fun c hc hover => ?_⟩⟩
  · refine ⟨_, ?_, fun k => Memory.get?_setBytes s.iobuf s.argDst.toNat k c.data⟩
    rw [exec_chunkData_at hc, if_pos hfits]
    rfl
  · rw [exec_chunkData_at hc, if_neg (by omega)]
    rfl

end Sys2Proof.Machine
end

section
/-! PNG_APPEND and PNG_INSERT, which add one record (43_png.md R248, R254, R255), and the order of the others (R262). -/

namespace Sys2Proof.Machine

/-! ## Adding a record -/

/-- What PNG_APPEND and PNG_INSERT answer, the record added being the one that CHUNK_BUILD would serialize. -/
theorem addChunk_eq (pos : Nat) (s : State) :
    addChunk pos s = .next (
      if s.sourceInBuf then
        if (ChunkType.ofWord s.argType).constructible then
          if s.roomFor s.argLen.toNat then
            State.complete { s.afterSource with
              seq := insertAt s.seq pos s.builtChunk
              resIndex := toReg pos, resLen := s.argLen, resType := s.argType, resCrc := s.builtChunk.crc } 0
          else s.afterSource.complete 10
        else s.afterSource.complete 4
      else s.complete 9) := by
  rcases addChunk_cases pos s with ⟨hout, e⟩ | ⟨hin, ht, e⟩ | ⟨hin, ht, hfull, e⟩ | ⟨hin, hroom, c, hc, e⟩
  · simp [e, hout]
  · simp [e, hin, ht]
  · simp [e, hin, ht, hfull]
  · obtain ⟨ht, rfl⟩ := (mkChunk_eq_ok_iff _ _ c).mp hc
    simp [e, hin, ht, hroom, State.builtChunk]

section
variable {s : State} (pos : Nat)

theorem addChunk_outside (hout : ¬ s.argAddr.toNat + s.argLen.toNat ≤ s.params.bufBytes) :
    addChunk pos s = .next (s.complete 9) := by
  rw [addChunk_eq, if_neg (s.sourceInBuf_iff.not.mpr hout)]

variable (hin : s.argAddr.toNat + s.argLen.toNat ≤ s.params.bufBytes)
include hin

theorem addChunk_badType (ht : (ChunkType.ofWord s.argType).constructible = false) :
    addChunk pos s = .next (s.afterSource.complete 4) := by
  rw [addChunk_eq, if_pos (s.sourceInBuf_iff.mpr hin), if_neg (ne_true_of_eq_false ht)]

variable (ht : (ChunkType.ofWord s.argType).constructible = true)
include ht

theorem addChunk_full
    (hfull : ¬ (s.seq.length + 1 ≤ s.params.maxChunks ∧ dataBytes s.seq + s.argLen.toNat ≤ s.params.storeBytes)) :
    addChunk pos s = .next (s.afterSource.complete 10) := by
  rw [addChunk_eq, if_pos (s.sourceInBuf_iff.mpr hin), if_pos ht, if_neg ((State.roomFor_iff s _).not.mpr hfull)]

theorem addChunk_added
    (hroom : s.seq.length + 1 ≤ s.params.maxChunks ∧ dataBytes s.seq + s.argLen.toNat ≤ s.params.storeBytes) :
    addChunk pos s = .next (State.complete { s.afterSource with
      seq := insertAt s.seq pos s.builtChunk
      resIndex := toReg pos, resLen := s.argLen, resType := s.argType, resCrc := s.builtChunk.crc } 0) := by
  rw [addChunk_eq, if_pos (s.sourceInBuf_iff.mpr hin), if_pos ht, if_pos ((State.roomFor_iff s _).mpr hroom)]

end

/-- Settles O57: the end is the position after all records. -/
theorem pngAppendAddsAtTheEnd : Obligations.PngAppendAddsAtTheEnd := by
  refine ⟨by decide, fun s => ⟨fun hin ht hroom => ⟨s.draws + s.argLen.toNat, ?_⟩,
    fun hout => ⟨s.draws, addChunk_outside _ hout⟩, fun hin ht => ⟨_, addChunk_badType _ hin ht⟩,
    fun hin ht hfull => ⟨_, addChunk_full _ hin ht hfull⟩⟩⟩
  rw [exec_pngAppend, addChunk_added _ hin ht hroom, insertAt_length]
  rfl

theorem insertPos_of_iend {pre : List Chunk} {e : Chunk} (h : e.type = iendType) :
    insertPos (pre ++ [e]) = pre.length := by
  simp [insertPos, h]

theorem insertPos_of_not_iend {q : List Chunk} (h : ∀ pre e, q = pre ++ [e] → e.type ≠ iendType) :
    insertPos q = q.length := by
  cases q using List.reverseRecOn with
  | nil => rfl
  | append_singleton pre e => simp [insertPos, h pre e rfl]

/-- Settles O58: the position is that of a final IEND, else the end; "IEND" has the bytes the statement names. -/
theorem pngInsertAddsBeforeFinalIend : Obligations.PngInsertAddsBeforeFinalIend := by
  refine ⟨by decide, fun s => ⟨fun hin ht hroom => ?_,
    fun hout => ⟨s.draws, addChunk_outside _ hout⟩, fun hin ht => ⟨_, addChunk_badType _ hin ht⟩,
    fun hin ht hfull => ⟨_, addChunk_full _ hin ht hfull⟩⟩⟩
  have added := addChunk_added (insertPos s.seq) hin ht hroom
  refine ⟨fun pre e hseq he => ⟨s.draws + s.argLen.toNat, ?_⟩, fun hlast => ⟨s.draws + s.argLen.toNat, ?_⟩⟩
  · have iend : e.type = iendType := ChunkType.bytes_injective _ _ he
    have pos : insertPos s.seq = pre.length := by rw [hseq, insertPos_of_iend iend]
    have list : insertAt s.seq pre.length s.builtChunk = pre ++ [s.builtChunk, e] := by simp [hseq, insertAt]
    rw [exec_pngInsert, added, pos, list]
    rfl
  · have pos : insertPos s.seq = s.seq.length :=
      insertPos_of_not_iend fun pre e hseq he => hlast pre e hseq (congrArg ChunkType.bytes he)
    rw [exec_pngInsert, added, pos, insertAt_length]
    rfl

/-! ## The order of the other records -/

theorem sublist_of_addChunk {pos : Nat} {s t : State} (h : addChunk pos s = .next t) : s.seq.Sublist t.seq := by
  rcases addChunk_cases pos s with ⟨-, e⟩ | ⟨-, -, e⟩ | ⟨-, -, -, e⟩ | ⟨-, -, c, -, e⟩
  · cases e.symm.trans h; exact List.Sublist.refl _
  · cases e.symm.trans h; exact List.Sublist.refl _
  · cases e.symm.trans h; exact List.Sublist.refl _
  · cases e.symm.trans h; exact sublist_insertAt s.seq pos c

theorem sublist_of_exec_pngRemove {s t : State} (h : exec .pngRemove s = .next t) : t.seq.Sublist s.seq := by
  rcases exec_pngRemove_cases s with ⟨-, e⟩ | ⟨i, c, -, e⟩
  · cases e.symm.trans h; exact List.Sublist.refl _
  · cases e.symm.trans h; exact removeAt_sublist s.seq i

theorem seq_of_exec_pngParse_failed {s t : State} (h : exec .pngParse s = .next t) (h0 : t.errcode ≠ 0) :
    t.seq = s.seq := by
  rcases exec_pngParse_cases s with ⟨-, e⟩ | ⟨-, x, -, e⟩ | ⟨-, q, -, e⟩
  · cases e.symm.trans h; rfl
  · cases e.symm.trans h; rfl
  · cases e.symm.trans h; exact absurd rfl h0

/-- Settles O34: of the commands that edit SEQ, two add one record, PNG_REMOVE and PNG_CLEAR take records out, and
PNG_PARSE answers for itself; the frame says that every other command keeps SEQ. -/
theorem relativeOrderIsKept : Obligations.RelativeOrderIsKept := by
  intro i s t h
  refine ⟨fun hparse => ?_, ?_⟩
  · cases hedits : editsSeq i with
    | false => exact .inl ((CommandFrame.of_exec h).seq hedits ▸ List.Sublist.refl _)
    | true =>
      cases i with
      | pngClear => cases (exec_pngClear s).symm.trans h; exact .inr (List.nil_sublist _)
      | pngParse => exact absurd rfl hparse
      | pngRemove => exact .inr (sublist_of_exec_pngRemove h)
      | pngAppend => exact .inl (sublist_of_addChunk h)
      | pngInsert => exact .inl (sublist_of_addChunk h)
      | _ => cases hedits
  · rintro rfl
    exact seq_of_exec_pngParse_failed h

end Sys2Proof.Machine
end

section
/-! The control command (44_control.md R300). -/

namespace Sys2Proof.Machine

/-- Settles O35: the word is the encoding of NOP, and the fields named are those that a completion with code 0 sets. -/
theorem nopOnlyCompletes : Obligations.NopOnlyCompletes :=
  ⟨(decode_eq_ok_iff_encode _ .nop).mpr rfl, exec_nop⟩

end Sys2Proof.Machine
end

section
/-! What an error completion may change (60_exceptions.md R330), said once for all commands on the fields of the state,
and the error kinds a command can report (R336). -/

namespace Sys2Proof.Machine

/-! ## The frame of an error -/

/-- The frame of an error, between the state `s` before a command and the state `t` of its error completion: the
completion fields are set, and of the rest only what the command's rule names changes. -/
structure ErrorFrame (i : Instr) (s t : State) : Prop where
  reported : ∃ k ∈ reportedErrors i, t.errcode = k.code
  /-- Outside the completion fields, what `writtenOnError` lists for some command and the count of draws, nothing
  changes. -/
  kept : t = { s with
    errcode := t.errcode, busy := false, done := true, inflight := none
    typeFlags := t.typeFlags, resIndex := t.resIndex, resOffset := t.resOffset, draws := t.draws } := by rfl
  typeFlags : .typeFlags ∉ writtenOnError i → t.typeFlags = s.typeFlags := by exact fun _ => rfl
  resIndex : .resIndex ∉ writtenOnError i → t.resIndex = s.resIndex := by exact fun _ => rfl
  resOffset : .resOffset ∉ writtenOnError i → t.resOffset = s.resOffset := by exact fun _ => rfl

/-- The frame of an error that writes nothing of its own, before or after the source bytes are read. -/
theorem ErrorFrame.complete {i : Instr} {k : ErrorKind} (s : State) (n : Nat) (hk : k ∈ reportedErrors i) :
    ErrorFrame i s ((s.drawn n).complete k.code) where
  reported := ⟨k, hk, rfl⟩

/-- What PNG_APPEND and PNG_INSERT report (R254, R255). -/
theorem addChunk_success_or_error {i : Instr} (hi : i = .pngAppend ∨ i = .pngInsert) (pos : Nat) (s : State) :
    ∃ t, addChunk pos s = .next t ∧ (t.errcode = 0 ∨ ErrorFrame i s t) := by
  have reports {k : ErrorKind} (hk : k ∈ [ErrorKind.rangeError, .invalidTypeByte, .capacityExceeded]) :
      k ∈ reportedErrors i := by
    rcases hi with rfl | rfl <;> exact hk
  rcases addChunk_cases pos s with ⟨-, e⟩ | ⟨-, -, e⟩ | ⟨-, -, -, e⟩ | ⟨-, -, c, -, e⟩
  · exact ⟨_, e, .inr (.complete s 0 (k := .rangeError) (reports (by decide)))⟩
  · exact ⟨_, e, .inr (.complete s _ (k := .invalidTypeByte) (reports (by decide)))⟩
  · exact ⟨_, e, .inr (.complete s _ (k := .capacityExceeded) (reports (by decide)))⟩
  · exact ⟨_, e, .inl rfl⟩

/-- Every command completes with success or in the frame of an error (R330, R334). -/
theorem exec_success_or_error (i : Instr) (s : State) :
    ∃ t, exec i s = .next t ∧ (t.errcode = 0 ∨ ErrorFrame i s t) := by
  cases i with
  | nop => exact ⟨_, exec_nop s, .inl rfl⟩
  | crcInit => exact ⟨_, exec_crcInit s, .inl rfl⟩
  | crcByte b => exact ⟨_, exec_crcByte b s, .inl rfl⟩
  | crcBuf =>
    rw [exec_crcBuf]
    split
    · exact ⟨_, rfl, .inl rfl⟩
    · exact ⟨_, rfl, .inr (.complete s 0 (k := .rangeError) (by decide))⟩
  | typeCheck =>
    rw [exec_typeCheck]
    split
    · exact ⟨_, rfl, .inl rfl⟩
    · exact ⟨_, rfl, .inr {
        reported := ⟨.invalidTypeByte, by decide, rfl⟩
        typeFlags := fun h => absurd (by decide) h }⟩
  | chunkParse =>
    rcases exec_chunkParse_cases s with ⟨-, e⟩ | ⟨-, k, hk, e⟩ | ⟨-, c, m, -, e⟩
    · exact ⟨_, e, .inr (.complete s 0 (k := .rangeError) (by decide))⟩
    · have listed : k ∈ reportedErrors .chunkParse := by
        rcases parseChunk_error_kind _ k hk with rfl | rfl | rfl <;> decide
      exact ⟨_, e, .inr (.complete s _ listed)⟩
    · exact ⟨_, e, .inl rfl⟩
  | chunkBuild =>
    rcases exec_chunkBuild_cases s with ⟨-, e⟩ | ⟨-, -, -, e⟩ | ⟨-, -, c, -, e⟩
    · exact ⟨_, e, .inr (.complete s 0 (k := .rangeError) (by decide))⟩
    · exact ⟨_, e, .inr (.complete s _ (k := .invalidTypeByte) (by decide))⟩
    · exact ⟨_, e, .inl rfl⟩
  | pngClear => exact ⟨_, exec_pngClear s, .inl rfl⟩
  | pngParse =>
    rcases exec_pngParse_cases s with ⟨-, e⟩ | ⟨-, x, hx, e⟩ | ⟨-, q, -, e⟩
    · exact ⟨_, e, .inr (.complete s 0 (k := .rangeError) (by decide))⟩
    · have listed : x.kind ∈ reportedErrors .pngParse := by
        rcases parsePng_error_kind _ _ x hx with h | h | h | h | h <;> rw [h] <;> decide
      exact ⟨_, e, .inr {
        reported := ⟨x.kind, listed, rfl⟩
        resIndex := fun h => absurd (by decide) h
        resOffset := fun h => absurd (by decide) h }⟩
    · exact ⟨_, e, .inl rfl⟩
  | pngSerialize =>
    rw [exec_pngSerialize]
    split
    · exact ⟨_, rfl, .inl rfl⟩
    · exact ⟨_, rfl, .inr (.complete s 0 (k := .rangeError) (by decide))⟩
  | pngFind =>
    rcases exec_pngFind_cases s with ⟨-, e⟩ | ⟨j, c, -, e⟩
    · exact ⟨_, e, .inr (.complete s 0 (k := .chunkNotFound) (by decide))⟩
    · exact ⟨_, e, .inl rfl⟩
  | pngRemove =>
    rcases exec_pngRemove_cases s with ⟨-, e⟩ | ⟨j, c, -, e⟩
    · exact ⟨_, e, .inr (.complete s 0 (k := .chunkNotFound) (by decide))⟩
    · exact ⟨_, e, .inl rfl⟩
  | pngAppend => exact addChunk_success_or_error (.inl rfl) s.seq.length s
  | pngInsert => exact addChunk_success_or_error (.inr rfl) (insertPos s.seq) s
  | chunkInfo =>
    rcases exec_chunkInfo_cases s with ⟨-, e⟩ | ⟨c, -, e⟩
    · exact ⟨_, e, .inr (.complete s 0 (k := .rangeError) (by decide))⟩
    · exact ⟨_, e, .inl rfl⟩
  | chunkData =>
    rcases exec_chunkData_cases s with ⟨-, e⟩ | ⟨c, -, -, e⟩
    · exact ⟨_, e, .inr (.complete s 0 (k := .rangeError) (by decide))⟩
    · exact ⟨_, e, .inl rfl⟩

theorem success_or_errorFrame_of_exec {i : Instr} {s t : State} (h : exec i s = .next t) :
    t.errcode = 0 ∨ ErrorFrame i s t := by
  obtain ⟨u, e, outcome⟩ := exec_success_or_error i s
  cases e.symm.trans h
  exact outcome

/-- A register that the table does not list for an error reads as before. -/
theorem ErrorFrame.readReg_eq {i : Instr} {s t : State} (h : ErrorFrame i s t) {r : Reg} (hr : r ∉ writtenOnError i)
    (hstatus : r ≠ .status) (herrcode : r ≠ .errcode) : t.readReg r = s.readReg r := by
  cases r with
  | status => exact absurd rfl hstatus
  | errcode => exact absurd rfl herrcode
  | typeFlags => exact h.typeFlags hr
  | resIndex => exact h.resIndex hr
  | resOffset => exact h.resOffset hr
  | _ =>
    rw [h.kept]
    rfl

/-- Settles O31: an error completion is in the frame of an error, and an illegal word's completion is `State.complete`
with the code of BadCommand. -/
theorem errorsArePrecise : Obligations.ErrorsArePrecise := by
  refine ⟨fun i s t h herr => ?_, fun s w hw hillegal => ?_⟩
  · have frame : ErrorFrame i s t := (success_or_errorFrame_of_exec h).resolve_left herr
    refine ⟨frame.reported, ?_, ?_, ?_, ?_, ?_, ?_, fun r => frame.readReg_eq, ?_, ?_⟩ <;> rw [frame.kept]
  · cases hd : decode w with
    | ok i => exact absurd ⟨i, hd⟩ hillegal
    | error r => exact engineStep_illegal s w r hw hd

/-! ## The kinds a command reports -/

/-- The host's two kinds and BadCommand, which is the decoder's, are in no command's row (R320, R325, R327). -/
theorem unreported_kinds (i : Instr) :
    .invalidTypeString ∉ reportedErrors i ∧ .utf8DecodeError ∉ reportedErrors i ∧ .badCommand ∉ reportedErrors i := by
  cases i with
  | crcByte b => simp [reportedErrors]
  | _ => decide

theorem code_of_mem_reportedErrors {i : Instr} {k : ErrorKind} (hk : k ∈ reportedErrors i) :
    k.code ≠ 5 ∧ k.code ≠ 7 ∧ k.code ≠ 8 ∧ k.code.toNat ≤ 10 := by
  obtain ⟨typeString, utf8, badCommand⟩ := unreported_kinds i
  cases k with
  | invalidTypeString => exact absurd hk typeString
  | utf8DecodeError => exact absurd hk utf8
  | badCommand => exact absurd hk badCommand
  | _ => decide

/-- Settles O32: ERRCODE is 0 or the code of a kind in the command's row. -/
theorem commandsReportTheirOwnErrors : Obligations.CommandsReportTheirOwnErrors := by
  intro i s t h
  rcases success_or_errorFrame_of_exec h with hzero | frame
  · exact ⟨.inl hzero, by rw [hzero]; decide⟩
  · obtain ⟨k, hk, hcode⟩ := frame.reported
    exact ⟨.inr ⟨k, hk, hcode⟩, by rw [hcode]; exact code_of_mem_reportedErrors hk⟩

end Sys2Proof.Machine
end

section
/-! The completion of a command (60_exceptions.md R334), a STATUS write that falls in its cycle (R337), and the
interrupt line that shows it (R340). -/

namespace Sys2Proof.Machine

/-- Settles O27: the completion fields are those of `State.complete`, and the command's frame keeps the others. -/
theorem commandCompletionFields : Obligations.CommandCompletionFields := by
  intro i s
  obtain ⟨u, code, h⟩ := exec_completes i s
  refine ⟨_, h, rfl, rfl, rfl, ?_⟩
  rw [(CommandFrame.of_exec h).kept]
  exact ⟨rfl, rfl, rfl, rfl, rfl, rfl, rfl, rfl, rfl, rfl, rfl⟩

theorem clearsDone_writeAccess_status {v : Word} (hv : v.getLsbD 1 = true) :
    (writeAccess (regOffset .status) v).clearsDone = true := by
  have reaches := register?_writeAccess .status v
  simp only [Access.clearsDone, decide_eq_true_eq]
  exact ⟨rfl, reaches, rfl, hv⟩

/-- With a command in flight, an access that clears DONE comes before the completion of its cycle, in either order
(log 9). -/
theorem coincideStep_of_clearsDone {s : State} {w : Word} {a : Access} (first : Bool) (hw : s.inflight = some w)
    (ha : a.clearsDone = true) : coincideStep a first s = engineStep (s.hostAccess a) := by
  simp [coincideStep, hw, ha]

/-- Settles O11: the write keeps the word in flight, and its completion, which sets DONE, comes second. -/
theorem coincidingCompletionIsSecond : Obligations.CoincidingCompletionIsSecond := by
  intro s w v first hw hv
  rw [coincideStep_of_clearsDone first hw (clearsDone_writeAccess_status hv), State.hostAccess_writeAccess]
  obtain ⟨u, code, completes⟩ := runWord_completes w (s.writeReg .status v)
  have inflight : (s.writeReg .status v).inflight = some w := hw
  refine ⟨u.complete code, (engineStep_inflight _ w inflight).trans completes, ?_, rfl⟩
  exact State.getLsbD_statusWord (u.complete code) 1

/-- Settles O25: the two bits read are DONE and IE. -/
theorem interruptLineIsDoneAndEnable : Obligations.InterruptLineIsDoneAndEnable := by
  intro s
  have done : (s.readReg .status).getLsbD 1 = s.done := State.getLsbD_statusWord s 1
  have enable : (s.readReg .ctrl).getLsbD 0 = s.ie := State.getLsbD_ctrlWord s 0
  rw [done, enable]
  rfl

end Sys2Proof.Machine
end

section
/-! Reset and acceptance (70_reset_and_hazards.md R370, R371, R376, R380, R381): what a reset leaves, what the engine
finds in flight, and the register writes that BUSY does not stop (R384). -/

namespace Sys2Proof.Machine

/-- Settles O4: the engine moves in both cases, and on a word in flight its step is the command's meaning. -/
theorem stepRunsDecodedCommand : Obligations.StepRunsDecodedCommand := by
  intro s w i hw hd
  refine ⟨fun hs => ?_, fun rest hs => ?_⟩
  · rw [step_nil s hs]
    exact engineStep_legal s w i hw hd
  · rw [step_cons s .engine rest hs]
    exact engineStep_legal (s.withSchedule rest) w i hw hd

/-- A clock edge with RST = 1 resets the block; an access of that cycle can only show in the model's own bus data and
count of draws (R370; log 4). -/
theorem resetStep_eq (a : Option Access) (s : State) :
    ∃ d v, resetStep a s = { s.resetBlock with draws := d, rdata := v } := by
  unfold resetStep
  cases a with
  | none => exact ⟨s.draws, s.rdata, rfl⟩
  | some a =>
    cases h : a.write with
    | true => exact ⟨s.draws, s.rdata, if_pos h⟩
    | false => exact ⟨s.draws + 1, Config.freeWord s.draws, if_neg (Bool.eq_false_iff.mp h)⟩

/-- Settles O9: the registers read the fields of `State.resetBlock`, which are the reset values of R65. -/
theorem resetRestoresResetState : Obligations.ResetRestoresResetState := by
  intro s a rest hs
  obtain ⟨d, v, hreset⟩ := resetStep_eq a (s.withSchedule rest)
  refine ⟨_, (step_cons s (.reset a) rest hs).trans (congrArg Host.Outcome.next hreset),
    BitVec.eq_of_toNat_eq (State.toNat_ctrlWord _), BitVec.eq_of_toNat_eq (State.toNat_statusWord _), rfl, rfl,
    fun r hr => ?_, rfl, BitVec.xor_self, rfl, rfl, fun r hr => ?_, rfl, rfl, fun _ => rfl, rfl, rfl⟩
  · fin_cases hr <;> rfl
  · fin_cases hr <;> rfl

/-- While BUSY = 0 a CMD write is an acceptance (R380). -/
theorem State.write_cmd_idle (s : State) (w : Word) (hb : s.busy = false) :
    s.hostAccess (writeAccess 0x010 w) = s.accept w := by
  rw [State.write_cmd, State.unlessBusy_idle s _ hb]

/-- Settles O19: the accepted state has the word in flight, and the engine runs it from there. -/
theorem acceptanceOfCommandWord : Obligations.AcceptanceOfCommandWord := by
  intro s w hb
  rw [State.write_cmd_idle s w hb]
  exact ⟨rfl, fun i hd => engineStep_legal (s.accept w) w i (State.accept_inflight s w) hd⟩

/-- Settles O16: the written bits clear DONE and PV, and the other writes are those of their registers. -/
theorem controlAndStatusWritesAlwaysTake : Obligations.ControlAndStatusWritesAlwaysTake := by
  intro s v
  refine ⟨State.write_ctrl s v, ?_, fun r hr => ?_⟩
  · have clear (b bit : Bool) : (b && !bit) = if bit then false else b := by cases bit <;> simp
    rw [State.write_status, clear, clear]
  · rw [State.hostAccess_writeAccess, State.writeReg_readOnly s r v hr]

end Sys2Proof.Machine
end

section
/-! Host accesses while BUSY = 1 (70_reset_and_hazards.md R383, R385): what they lose, what they read, and that the
command in flight and its operands stay. -/

namespace Sys2Proof.Machine

/-! ## Lost writes -/

/-- While BUSY = 1 a write of CMD or of an argument register is lost and sets PV (R383). -/
theorem State.writeReg_busy (s : State) (r : Reg) (v : Word) (hb : s.busy = true) (hr : r = .cmd ∨ r ∈ argRegs) :
    s.writeReg r v = s.violate := by
  have lost (t : State) : s.unlessBusy t = s.violate := State.unlessBusy_busy s t hb
  simp only [argRegs, List.mem_cons, List.not_mem_nil, or_false] at hr
  rcases hr with rfl | rfl | rfl | rfl | rfl | rfl <;> exact lost _

/-- While BUSY = 1 a write of the buffer space sets PV and does nothing else, legal or not (R86, R383). -/
theorem State.hostAccess_bufWrite_busy (s : State) (a : Access) (hb : s.busy = true) (hspace : a.space = .buf)
    (hw : a.write = true) : s.hostAccess a = s.violate := by
  rcases State.hostAccess_cases s a with e | ⟨r, hreg, -, -⟩ | ⟨n, -, -, e⟩
  · simp [e, State.violation, hw]
  · cases hspace.symm.trans hreg
  · simp [e, State.bufAccess, hw, State.unlessBusy_busy s _ hb]

/-! ## The frame of the host's moves -/

/-- What the host can change while a command is in flight, from a state `s` to a state `t`: nothing that the command
reads, and it cannot set DONE (10_state.md R36, R63). -/
structure BusyFrame (s t : State) : Prop where
  /-- Outside CTRL, DONE, PV and the model's own fields, nothing changes. -/
  kept : t = { s with
    ie := t.ie, done := t.done, pv := t.pv, draws := t.draws, schedule := t.schedule, rdata := t.rdata } := by rfl
  notDone : s.done = false → t.done = false := by exact id

theorem BusyFrame.trans {s t u : State} (hst : BusyFrame s t) (htu : BusyFrame t u) : BusyFrame s u where
  kept := by
    calc
      u = { t with
          ie := u.ie, done := u.done, pv := u.pv, draws := u.draws, schedule := u.schedule, rdata := u.rdata } :=
        htu.kept
      _ = { s with
          ie := u.ie, done := u.done, pv := u.pv, draws := u.draws, schedule := u.schedule, rdata := u.rdata } := by
        rw [hst.kept]
  notDone h := htu.notDone (hst.notDone h)

theorem BusyFrame.withSchedule {s t : State} (h : BusyFrame s t) (es : List Event) : BusyFrame s (t.withSchedule es) :=
  h.trans {}

/-- While BUSY = 1 a register write reaches CTRL and STATUS only, and STATUS.DONE can only be cleared (R383, R384). -/
theorem BusyFrame.writeReg {s : State} (hb : s.busy = true) (r : Reg) (v : Word) : BusyFrame s (s.writeReg r v) := by
  have lost (h : r = .cmd ∨ r ∈ argRegs) : BusyFrame s (s.writeReg r v) := by
    rw [State.writeReg_busy s r v hb h]
    exact {}
  cases r with
  | ctrl => exact {}
  | status => exact { notDone := fun h => by simp [State.writeReg, h] }
  | cmd | argAddr | argLen | argType | argIndex | argDst => exact lost (by decide)
  | id | version | errcode | resLen | resType | resCrc | resIndex | resOffset | crcState | crcResult | typeFlags
  | nchunks | storeUsed | capBuf | capChunks | capStore => exact {}

/-- While BUSY = 1 every host access is in the frame (R383). -/
theorem BusyFrame.hostAccess {s : State} (hb : s.busy = true) (a : Access) : BusyFrame s (s.hostAccess a) := by
  rcases State.hostAccess_cases s a with e | ⟨r, -, -, e⟩ | ⟨n, -, -, e⟩
  · rw [e]
    unfold State.violation
    split
    · exact {}
    · exact {}
  · rw [e]
    unfold State.regAccess
    split
    · exact BusyFrame.writeReg hb r a.wdata
    · exact {}
  · rw [e]
    unfold State.bufAccess
    split
    · rw [State.unlessBusy_busy s _ hb]
      exact {}
    · exact {}

/-- Settles O20: a lost write is `State.violate`, and what no access changes is what the frame keeps. -/
theorem busyWriteIsLost : Obligations.BusyWriteIsLost := by
  intro s hb
  refine ⟨fun v r hr => ?_, fun off wd v => State.hostAccess_bufWrite_busy s _ hb rfl rfl, fun a t ht => ?_⟩
  · rw [State.hostAccess_writeAccess]
    exact State.writeReg_busy s r v hb (List.mem_cons.mp hr)
  · subst ht
    rw [(BusyFrame.hostAccess hb a).kept]
    exact ⟨rfl, hb, rfl, rfl, rfl, rfl, rfl, rfl, rfl, rfl, rfl, rfl⟩

/-! ## Reads -/

/-- While BUSY = 1 a host read of the buffer gets a fresh free value for each byte (R385; log 3). -/
theorem State.getElem?_hostBytes_busy (s : State) (a : Nat) {n i : Nat} (hb : s.busy = true) (hi : i < n) :
    (s.hostBytes a n)[i]? = some (Config.freeByte (s.draws + i)) := by
  simp [State.hostBytes, hb, hi]

/-- Settles O21: acceptance writes STATUS and CMD, the invariant ties them to the word in flight, and a buffer read
shows the free values in byte order. -/
theorem busyReadsShowOldValues : Obligations.BusyReadsShowOldValues := by
  refine ⟨fun s w r hstatus hcmd => ?_, fun s h hb => ⟨?_, ?_, ?_⟩, fun s off v hb hin => ?_,
    fun s off v hb halign hin => ⟨_, State.hostAccess_buf s off v .w32 false rfl halign hin, fun i hi => ?_⟩⟩
  · cases r with
    | status => exact absurd rfl hstatus
    | cmd => exact absurd rfl hcmd
    | _ => rfl
  · exact (State.getLsbD_statusWord s 0).trans hb
  · exact (State.getLsbD_statusWord s 1).trans (h.notDone hb)
  · obtain ⟨w, hw⟩ := Option.isSome_iff_exists.mp (h.busyIff.symm.trans hb)
    rw [hw]
    exact congrArg some (h.inflight w hw).symm
  · have byte : s.hostBytes off.toNat 1 = [Config.freeByte s.draws] := by simp [State.hostBytes, hb]
    rw [State.hostAccess_buf s off v .w8 false rfl (Nat.mod_one _) hin, byte, littleEndianWord_singleton]
    rfl
  · refine (extract_littleEndianWord _ hi).trans ?_
    rw [List.getD_eq_getElem?_getD, State.getElem?_hostBytes_busy s _ hb hi]
    rfl

end Sys2Proof.Machine
end

section
/-! Every accepted command completes (70_reset_and_hazards.md R381, R382): until the engine moves the host's events keep
the command and its operands, and a schedule without a reset comes to the engine's move within its length and four
steps. -/

namespace Sys2Proof.Machine

/-- A command in flight, as the host sees it (10_state.md R63, R65). -/
structure Pending (w : Word) (s : State) : Prop where
  inflight : s.inflight = some w
  busy     : s.busy = true
  notDone  : s.done = false

theorem Pending.of_frame {w : Word} {s t : State} (h : Pending w s) (frame : BusyFrame s t) : Pending w t := by
  refine ⟨?_, ?_, frame.notDone h.notDone⟩
  · rw [frame.kept]
    exact h.inflight
  · rw [frame.kept]
    exact h.busy

/-- `t` is the completion of `w` on a state `c` that the host's moves reach from `s`, perhaps followed by an access of
the same cycle (60_exceptions.md R337). -/
def Completion (w : Word) (s t : State) : Prop :=
  ∃ c u, BusyFrame s c ∧ runWord w c = .next u ∧ (t = u ∨ ∃ a, t = u.hostAccess a)

/-- A run of at most `n` steps from `s` ends in the completion of `w`. -/
def CompletesWithin (w : Word) (n : Nat) (s : State) : Prop :=
  ∃ k ≤ n, ∃ t, Sys2Proof.core.run k s = .next t ∧ Completion w s t

theorem run_succ_of_step {s s' : State} (k : Nat) (h : step s = .next s') :
    Sys2Proof.core.run (k + 1) s = Sys2Proof.core.run k s' := by
  have hstep : Sys2Proof.core.step s = .next s' := h
  simp only [Host.Core.run, hstep]

theorem CompletesWithin.mono {w : Word} {m n : Nat} {s : State} (h : CompletesWithin w m s) (hmn : m ≤ n) :
    CompletesWithin w n s := by
  obtain ⟨k, hk, rest⟩ := h
  exact ⟨k, hk.trans hmn, rest⟩

/-- A step that completes the word. -/
theorem CompletesWithin.of_completion {w : Word} {s t : State} (hstep : step s = .next t) (h : Completion w s t) :
    CompletesWithin w 1 s :=
  ⟨1, Nat.le_refl 1, t, run_succ_of_step 0 hstep, h⟩

/-- A step of the host, before a run that completes the word. -/
theorem CompletesWithin.of_move {w : Word} {n : Nat} {s s' : State} (hstep : step s = .next s') (frame : BusyFrame s s')
    (h : CompletesWithin w n s') : CompletesWithin w (n + 1) s := by
  obtain ⟨k, hk, t, hrun, c, u, hc, completes⟩ := h
  exact ⟨k + 1, Nat.succ_le_succ hk, t, (run_succ_of_step k hstep).trans hrun, c, u, frame.trans hc, completes⟩

section
variable {w : Word} {s : State} (h : Pending w s)
include h

/-! ## The engine's moves -/

/-- The engine completes the word in flight on the state that the host's moves have reached (R381). -/
theorem Pending.engineStep_of_frame {c : State} (frame : BusyFrame s c) :
    ∃ u, engineStep c = .next u ∧ runWord w c = .next u := by
  obtain ⟨u, code, hrun⟩ := runWord_completes w c
  exact ⟨_, (engineStep_inflight c w (h.of_frame frame).inflight).trans hrun, hrun⟩

theorem Pending.completes_nil (hs : s.schedule = []) : CompletesWithin w 1 s := by
  obtain ⟨u, hu, hrun⟩ := h.engineStep_of_frame (c := s) {}
  exact .of_completion ((step_nil s hs).trans hu) ⟨s, u, {}, hrun, .inl rfl⟩

theorem Pending.completes_engine {rest : List Event} (hs : s.schedule = .engine :: rest) : CompletesWithin w 1 s := by
  obtain ⟨u, hu, hrun⟩ := h.engineStep_of_frame (c := s.withSchedule rest) {}
  exact .of_completion ((step_cons s .engine rest hs).trans hu) ⟨_, u, {}, hrun, .inl rfl⟩

/-- With another list of what happens next, an access is still in the frame. -/
theorem Pending.frame_hostAccess (rest : List Event) (a : Access) :
    BusyFrame s ((s.withSchedule rest).hostAccess a) :=
  BusyFrame.trans (t := s.withSchedule rest) {} (.hostAccess (s := s.withSchedule rest) h.busy a)

/-- An access and a completion in one cycle: the access follows the completion, or is one more move of the host before
it (60_exceptions.md R337; log 9). -/
theorem Pending.completes_coincide {a : Access} {first : Bool} {rest : List Event}
    (hs : s.schedule = .coincide a first :: rest) : CompletesWithin w 1 s := by
  have hstep : step s = coincideStep a first (s.withSchedule rest) := step_cons s (.coincide a first) rest hs
  have inflight : (s.withSchedule rest).inflight ≠ none := by simp [h.inflight]
  rw [coincideStep, if_neg inflight] at hstep
  split at hstep
  · obtain ⟨u, hu, hrun⟩ := h.engineStep_of_frame (c := s.withSchedule rest) {}
    rw [hu] at hstep
    exact .of_completion hstep ⟨_, u, {}, hrun, .inr ⟨a, rfl⟩⟩
  · have frame := h.frame_hostAccess rest a
    obtain ⟨u, hu, hrun⟩ := h.engineStep_of_frame frame
    exact .of_completion (hstep.trans hu) ⟨_, u, frame, hrun, .inl rfl⟩

/-! ## The host's moves -/

/-- After an access the command is still pending, with one event fewer. -/
theorem Pending.completes_access {a : Access} {rest : List Event} {n : Nat} (hs : s.schedule = .access a :: rest)
    (next : ∀ t, Pending w t → t.schedule = rest → CompletesWithin w n t) : CompletesWithin w (n + 1) s :=
  have frame := h.frame_hostAccess rest a
  .of_move (step_cons s (.access a) rest hs) frame (next _ (h.of_frame frame) (State.hostAccess_schedule _ a))

/-- A poll reads DONE = 0, so it gives the engine the next step (log 10). -/
theorem Pending.completes_poll {rest : List Event} (hs : s.schedule = .poll :: rest) : CompletesWithin w 2 s := by
  have hpoll : eventStep .poll (s.withSchedule rest) = _ := congrArg Host.Outcome.next (pollStep_waits _ h.notDone)
  have hstep := (step_cons s .poll rest hs).trans hpoll
  exact .of_move hstep {} ((h.of_frame {}).completes_engine rfl)

/-- A host that stops on an error drops the rest of its script, and then the engine moves (log 10). -/
theorem Pending.completes_stopOnError {rest : List Event} {n : Nat} (hs : s.schedule = .stopOnError :: rest)
    (next : ∀ t, Pending w t → t.schedule = rest ∨ t.schedule = [] → CompletesWithin w n t) :
    CompletesWithin w (n + 1) s := by
  have frame := h.frame_hostAccess rest (readAccess .errcode)
  have hstep := step_cons s .stopOnError rest hs
  simp only [eventStep, stopOnErrorStep] at hstep
  split at hstep
  · exact .of_move hstep frame (next _ (h.of_frame frame) (.inl (State.hostAccess_schedule _ _)))
  · have stopped := frame.withSchedule []
    exact .of_move hstep stopped (next _ (h.of_frame stopped) (.inr rfl))

/-- R306's loop is empty or comes to a poll at its third event. -/
theorem Pending.completes_printChunks {dst : Word} {rest : List Event} {n : Nat}
    (hs : s.schedule = .printChunks dst :: rest) (hn : 4 ≤ n)
    (next : ∀ t, Pending w t → t.schedule = rest → CompletesWithin w n t) : CompletesWithin w (n + 1) s := by
  have hstep := step_cons s (.printChunks dst) rest hs
  simp only [eventStep, printStep, State.hostAccess_schedule, State.withSchedule_schedule] at hstep
  have frame := (h.frame_hostAccess rest (readAccess .nchunks)).withSchedule
    (printLoop dst ((s.withSchedule rest).hostAccess (readAccess .nchunks)).rdata.toNat ++ rest)
  refine .of_move hstep frame ?_
  have pending := h.of_frame frame
  cases hcount : ((s.withSchedule rest).hostAccess (readAccess .nchunks)).rdata.toNat with
  | zero =>
    rw [hcount] at pending
    exact next _ pending rfl
  | succ m =>
    rw [hcount] at pending
    obtain ⟨more, hloop⟩ := printLoop_succ dst m
    rw [hloop] at pending ⊢
    exact (pending.completes_access rfl fun t ht hschedule =>
      ht.completes_access hschedule fun t ht hschedule => ht.completes_poll hschedule).mono hn

end

/-- A schedule without a reset comes to the completion of the word in flight: each event completes it or is a move of
the host (R382). -/
theorem Pending.completesWithin {w : Word} (es : List Event) {s : State} (h : Pending w s) (hs : s.schedule = es)
    (noReset : ∀ a, Event.reset a ∉ es) : CompletesWithin w (es.length + 4) s := by
  induction es generalizing s with
  | nil => exact (h.completes_nil hs).mono (by omega)
  | cons e rest ih =>
    have next (t : State) (ht : Pending w t) (hschedule : t.schedule = rest) : CompletesWithin w (rest.length + 4) t :=
      ih ht hschedule fun a ha => noReset a (List.mem_cons_of_mem e ha)
    rw [List.length_cons, Nat.add_right_comm]
    cases e with
    | access a => exact h.completes_access hs next
    | engine => exact (h.completes_engine hs).mono (by omega)
    | coincide a first => exact (h.completes_coincide hs).mono (by omega)
    | reset a => exact absurd List.mem_cons_self (noReset a)
    | poll => exact (h.completes_poll hs).mono (by omega)
    | forward off =>
      have frame := h.frame_hostAccess rest (writeAccess off s.rdata)
      exact .of_move (step_cons s (.forward off) rest hs) frame
        (next _ (h.of_frame frame) (State.hostAccess_schedule _ _))
    | stopOnError =>
      refine h.completes_stopOnError hs fun t ht hschedule => ?_
      rcases hschedule with hrest | hnil
      · exact next t ht hrest
      · exact (ht.completes_nil hnil).mono (by omega)
    | printChunks dst => exact h.completes_printChunks hs (by omega) next

/-- Settles O10: the run is that of `Pending.completesWithin`, and the state it completes on is in the frame of the
host's moves. -/
theorem acceptedCommandCompletes : Obligations.AcceptedCommandCompletes := by
  intro s w hw hb hd noReset
  have pending : Pending w s := ⟨hw, hb, hd⟩
  obtain ⟨k, hk, t, hrun, c, u, frame, hu, ht⟩ := pending.completesWithin s.schedule rfl noReset
  obtain ⟨v, code, hv⟩ := runWord_completes w c
  cases Host.Outcome.next.inj (hv.symm.trans hu)
  refine ⟨k, hk, t, c, _, hrun, hu, rfl, rfl, rfl, ht, (pending.of_frame frame).inflight, ?_⟩
  rw [frame.kept]
  exact ⟨rfl, rfl, rfl, rfl, rfl, rfl, rfl, rfl, rfl, rfl⟩

end Sys2Proof.Machine
end
